-- ==== Sys2Proof/Word.lean ====
section
/-! DEFINITION. The values the blocks compute with (spec/00_scope.md R10): bits, 8-bit count records, and the bytes of the
destination. A position in a stream and a length of one are plain naturals. -/

namespace Sys2Proof

/-- One bit of a stream or a 1-bit register: `false = 0`, `true = 1` (R10). -/
abbrev Bit := Bool

/-- A count record, and the width of ENC `count`: one unsigned 8-bit value (R8, R50, R17). -/
abbrev Record := BitVec 8

/-- A byte of the destination a sink delivers to (R36). -/
abbrev Byte := BitVec 8

end Sys2Proof
end

