-- ==== Sys2Proof/Config.lean ====
section
/-! DEFINITION. The parameters of the blocks (spec/00_scope.md R8, R9) and the names of the two blocks (R1). The constants never
change (R9). BIT_ORDER is an open parameter: it is an argument wherever it matters and a field of State, so every statement
over all states holds for both of its values (log 2). PORT_MAP is named by no rule and has no definition (R7, R8). -/

namespace Sys2Proof

/-- BIT_ORDER (R8, R37; 92_eei_decisions.md D4): which bit of a record or byte is first on the stream. -/
inductive BitOrder where
  /-- Bit 7 of a record is first on the stream. The spec's default. -/
  | msbFirst
  /-- Bit 0 of a record is first on the stream. -/
  | lsbFirst
  deriving DecidableEq, Repr

/-- The two blocks (R1). One invocation runs exactly one of them (R4, R90). -/
inductive Block where
  /-- run_length_encoder. -/
  | enc
  /-- run_length_decoder. -/
  | dec
  deriving DecidableEq, Repr

/-- RECORD_WIDTH (R8): the number of bits of a count record. -/
abbrev recordWidth : Nat := 8

/-- MAX_COUNT (R8): the largest count one record holds. -/
abbrev maxCount : Record := 255#8

/-- CONT_VALUE (R8): the value of a continuation record. -/
abbrev contValue : Record := 255#8

/-- INITIAL_BIT (R8): ENC `lastBit` and DEC `bit` after reset. -/
abbrev initialBit : Bit := false

/-- PAD_BIT (R8): the bit that `SnkClose` pads with. -/
abbrev padBit : Bit := false

end Sys2Proof
end

