-- ==== Sys2Proof/Syntax.lean ====
section
/-! DEFINITION. The operations of the two blocks, one constructor per row of spec/opcode_table.json (spec/30_encoding.md R53).
The blocks have no instruction words (R2): an operation is selected by the next input item, so the operand of a constructor is
that item (R49, R50). -/

namespace Sys2Proof

/-- The operations of R53. -/
inductive Instr where
  /-- E.BIT: ENC consumes one input bit `b` (format ENC_IN, R49, R62). -/
  | eBit (b : Bit)
  /-- E.END: ENC meets the end of its input (R63). -/
  | eEnd
  /-- D.CONT: DEC consumes a continuation record, 255 (format REC8, R50, R69). -/
  | dCont
  /-- D.RUN: DEC consumes a final record `c`, 0 to 254 (format REC8, R50, R70). -/
  | dRun (c : Record)
  /-- D.END: DEC meets the end of the compressed stream (R71). -/
  | dEnd
  deriving DecidableEq, Repr

/-- The block an operation belongs to (R53, column "block"). -/
def Instr.block : Instr → Block
  | .eBit _ => .enc
  | .eEnd => .enc
  | .dCont => .dec
  | .dRun _ => .dec
  | .dEnd => .dec

/-- How many input bits an operation consumes (R53, column "input consumed"). -/
def Instr.width : Instr → Nat
  | .eBit _ => 1
  | .eEnd => 0
  | .dCont => recordWidth
  | .dRun _ => recordWidth
  | .dEnd => 0

end Sys2Proof
end

