-- ==== Sys2Proof/Machine/State.lean ====
section
/-! DEFINITION. The state of the machine as plain data: the registers of ENC and DEC, a source and a sink for each of them
(spec/10_state.md R15), the parameter BIT_ORDER, and the model's own launch and schedule fields; the state after reset
(spec/70_reset_and_hazards.md R95); and the reasons a step can stop. -/

namespace Sys2Proof.Machine

/-- ENC `phase` (R18). -/
inductive EncPhase where
  | active
  | done
  deriving DecidableEq, Repr

/-- DEC `phase` (R21). -/
inductive DecPhase where
  | active
  | done
  | fault
  deriving DecidableEq, Repr

/-- DEC `cause` (R22, R79). -/
inductive Cause where
  | none
  | srcExhausted
  | srcShort
  deriving DecidableEq, Repr

/-- The registers of ENC (R16, R17, R18). -/
structure EncRegs where
  /-- The value of the run being counted (R16). -/
  lastBit : Bit
  /-- The bits of that value counted and not yet emitted (R17). -/
  count : Record
  /-- The control phase (R18). -/
  phase : EncPhase
  deriving DecidableEq, Repr

/-- The registers of DEC (R19 to R22). -/
structure DecRegs where
  /-- The implied bit value (R19). -/
  bit : Bit
  /-- 1 exactly when the last record read was a continuation record (R20). -/
  chain : Bit
  /-- The control phase (R21). -/
  phase : DecPhase
  /-- The fault cause (R22). -/
  cause : Cause
  /-- The source position of the read that failed (R22). -/
  faultPos : Nat
  deriving DecidableEq, Repr

/-- A bit source (R25). -/
structure Source where
  /-- `S`: the whole input of the invocation. -/
  bits : List Bit
  /-- `pos`: the number of bits consumed. -/
  pos : Nat
  /-- The host cannot yet answer a query or a read: the block holds (R86). The model's own field (log 6). -/
  stalled : Bool
  /-- The host has ended the source while the block waits for its sink: the end takes effect when the sink accepts (R87, R91). The
  model's own field (log 7). -/
  ending : Bool
  deriving DecidableEq, Repr

/-- A bit sink (R25) and the destination behind it (R35, R36). -/
structure Sink where
  /-- `W`: the bits written so far, in write order. -/
  written : List Bit
  /-- `closed`: the sink has been closed. -/
  closed : Bit
  /-- The bytes the close delivered (R36); `none` while nothing is promised of the destination (R99; log 11). -/
  delivered : Option (List Byte)
  /-- The host cannot yet accept a write or the close: the block holds (R86). The model's own field (log 6). -/
  stalled : Bool
  deriving DecidableEq, Repr

/-- What the host does between the steps of a block (R91); its reading of the delivered bytes after DONE changes nothing and is
`Sink.delivered`. The last four are what it must not do: the spec has a model refuse them (93_implementation_defined.md U11, U13;
log 13). -/
inductive HostMove where
  /-- The source of the running block can no longer answer for the moment (R86). -/
  | stallSource
  /-- The source answers again: the hold is lifted (R86). -/
  | answerSource
  /-- The sink of the running block cannot accept for the moment (R86). -/
  | stallSink
  /-- The sink accepts again: the hold is lifted (R86). -/
  | acceptSink
  /-- The host ends the source of the running block out of band (R87). -/
  | endSource
  /-- A new invocation of a block on an input (R94 to R97); `none` is an invalid mode selector (R93). -/
  | launch (block : Option Block) (input : List Bit)
  /-- A new invocation of DEC on the bytes ENC delivered (R90, R99). -/
  | pipeline
  /-- The host discards the sink after FAULT (R91; log 22). -/
  | discardSink
  /-- The host changes S during a run (R47). -/
  | changeInput
  /-- The host writes to the block's sink (R91). -/
  | writeSink
  /-- The host closes the sink itself, or a second time (R98). -/
  | closeSink
  /-- A sink write or close fails (R48). -/
  | failSink
  deriving DecidableEq, Repr

/-- Who moves in one step of the machine (log 5). -/
inductive Turn where
  | block
  | host (m : HostMove)
  deriving DecidableEq, Repr

/-- The whole machine. Both blocks are in it, each with its own source and sink (R4, R15). -/
structure State where
  /-- The block this invocation runs: a launch parameter, not a register (R4, R93; log 1). -/
  running : Block
  /-- BIT_ORDER, the same for both blocks (R8, R37; log 2). -/
  bitOrder : BitOrder
  /-- The registers of ENC. -/
  enc : EncRegs
  /-- The source of ENC. -/
  encSrc : Source
  /-- The sink of ENC. -/
  encSnk : Sink
  /-- The registers of DEC. -/
  dec : DecRegs
  /-- The source of DEC. -/
  decSrc : Source
  /-- The sink of DEC. -/
  decSnk : Sink
  /-- The turns to come, oldest first; when it is empty every turn is the block's (log 5). -/
  schedule : List Turn
  deriving DecidableEq, Repr

/-! ### One update per field -/

def State.setRunning (s : State) (b : Block) : State := { s with running := b }
def State.setEnc (s : State) (r : EncRegs) : State := { s with enc := r }
def State.setEncSrc (s : State) (x : Source) : State := { s with encSrc := x }
def State.setEncSnk (s : State) (k : Sink) : State := { s with encSnk := k }
def State.setDec (s : State) (r : DecRegs) : State := { s with dec := r }
def State.setDecSrc (s : State) (x : Source) : State := { s with decSrc := x }
def State.setDecSnk (s : State) (k : Sink) : State := { s with decSnk := k }
def State.setSchedule (s : State) (l : List Turn) : State := { s with schedule := l }

/-! ### Reset -/

/-- ENC after reset (R95). -/
def EncRegs.reset : EncRegs := ⟨initialBit, 0#8, .active⟩

/-- DEC after reset (R95). -/
def DecRegs.reset : DecRegs := ⟨initialBit, false, .active, .none, 0⟩

/-- A source just attached: it holds the whole input and nothing is consumed (R95, R97). -/
def Source.attached (input : List Bit) : Source := ⟨input, 0, false, false⟩

/-- A sink just attached: empty and open (R95, R97). -/
def Sink.attached : Sink := ⟨[], false, none, false⟩

/-- The machine right after reset, with no input attached yet (R95). DESIGN CHOICE: ENC is the running block (log 1), both inputs
are empty (log 3), no turn is scheduled (log 5). The bit order is the spec's default (R8). -/
def State.reset : State where
  running := .enc
  bitOrder := .msbFirst
  enc := EncRegs.reset
  encSrc := Source.attached []
  encSnk := Sink.attached
  dec := DecRegs.reset
  decSrc := Source.attached []
  decSnk := Sink.attached
  schedule := []

/-! ### Reasons to stop -/

/-- A stop that is no fault of the hardware: the running block has no step left (R18, R21, R84; log 8). The hardware's own faults
are next states in phase FAULT (R80). Safe: the model says nothing after the end of a run. -/
inductive Fault where
  /-- Raised by a block's turn when ENC is in phase DONE: it takes no step until the next reset (R18). Safe. -/
  | encDone
  /-- Raised by a block's turn when DEC is in phase DONE: it takes no step until the next reset (R21). Safe. -/
  | decDone
  /-- Raised by a block's turn when DEC is in phase FAULT: FAULT is sticky until the next reset (R84). Safe. -/
  | decFault
  deriving DecidableEq, Repr

/-- What has no meaning in the spec, or what the spec has a model refuse. -/
inductive Refusal where
  /-- Raised by an arm of exec whose instruction has no meaning yet; no arm raises it now. Safe. -/
  | notModelled (mnemonic : String)
  /-- Raised by exec for an operation that the state and the input do not select (R53); step never raises it. Safe (log 9). -/
  | notSelected
  /-- Raised by a launch during a run, that is a reset of an ACTIVE block after its first step (R96). Safe (log 12). -/
  | resetDuringRun
  /-- Raised by a launch with an invalid mode selector: no block runs (R93). Safe (log 13). -/
  | invalidSelector
  /-- Raised by a pipeline before ENC's output is delivered (R99, 92_eei_decisions.md D14). Safe (log 17). -/
  | outputNotDelivered
  /-- Raised by a host that changes the input, writes the sink or closes it (U11; log 13), or discards a sink when DEC is not in FAULT
  (log 22). Safe. -/
  | hostBreach
  /-- Raised by a sink that fails (R48, U13). Safe for a claim about runs; the hardware's sink may fail (log 13). -/
  | sinkFailed
  deriving DecidableEq, Repr

/-- The three outcomes of a step, with this machine's types. -/
abbrev Result := Host.Outcome State Fault Refusal

end Sys2Proof.Machine
end

