-- ==== Sys2Proof/Machine/Flags.lean ====
section
/-! DEFINITION. The blocks have no flags (spec/10_state.md R23). What stands here are the tests their operations make on their
registers, all unsigned (spec/40_encoder.md R65). -/

namespace Sys2Proof.Machine

/-- The trigger of E.BIT: `(b != lastBit) or (count = 255 and b = lastBit)` (R62). -/
def mustEmit (b : Bit) (r : EncRegs) : Bool :=
  b != r.lastBit || (r.count == maxCount && b == r.lastBit)

/-- The test of E.END: `count > 0` (R63). -/
def hasPending (r : EncRegs) : Bool := decide (0#8 < r.count)

end Sys2Proof.Machine
end

