-- ==== Sys2Proof/WellFormed.lean ====
section
/-! DEFINITION. Which terms of Instr are operations of the hardware: a final record is never 255 (spec/41_decoder.md R70,
90_conflicts.md C4). Every other operand value is legal (spec/30_encoding.md R55). -/

namespace Sys2Proof

/-- The one check: the operand of D.RUN is in 0..254 (R54, R70). -/
def Instr.wf : Instr → Bool
  | .eBit _ => true
  | .eEnd => true
  | .dCont => true
  | .dRun c => c != contValue
  | .dEnd => true

end Sys2Proof
end

