-- ==== Sys2Proof/Decode.lean ====
section
/-! DEFINITION. Reading the input stream: how bits make an unsigned value and back under BIT_ORDER (spec/20_memory.md R31, R34,
R36, R37), the classification of an input item (spec/30_encoding.md R49 to R54), the total decoder and the encoder over stream
bits, and the host's `decodeTableWord`. -/

namespace Sys2Proof

/-! ### Values on the bit stream -/

/-- The unsigned value whose bit i is element i of the list: the sum of `bits[i] * 2^i` (R10). -/
def natOfBits : List Bit → Nat
  | [] => 0
  | b :: bs => b.toNat + 2 * natOfBits bs

/-- The w bits of a value, bit 0 first (R10). -/
def bitsOfNat : Nat → Nat → List Bit
  | 0, _ => []
  | w + 1, v => v.testBit 0 :: bitsOfNat w (v / 2)

/-- A list of bits in stream order turned to bit-0-first order, and back (R31, R34, R37). -/
def inOrder (o : BitOrder) (bits : List Bit) : List Bit :=
  match o with
  | .msbFirst => bits.reverse
  | .lsbFirst => bits

/-- The value that `SrcReadUint` makes of the bits it reads, first stream bit first: the sum of `S[pos + i] * 2^(w-1-i)` with
MSB_FIRST and of `S[pos + i] * 2^i` with LSB_FIRST (R31). -/
def uintOfBits (o : BitOrder) (bits : List Bit) : Nat := natOfBits (inOrder o bits)

/-- The w stream bits that `SnkWriteUint(v, w)` appends, in the order it appends them (R34). -/
def bitsOfUint (o : BitOrder) (v w : Nat) : List Bit := inOrder o (bitsOfNat w v)

/-- A count record of the bits of one record in stream order (R50, R51). -/
def recordOfBits (o : BitOrder) (bits : List Bit) : Record := BitVec.ofNat recordWidth (uintOfBits o bits)

/-- The stream bits of a count record (R50, R51). -/
def bitsOfRecord (o : BitOrder) (c : Record) : List Bit := bitsOfUint o c.toNat recordWidth

/-- The bytes of a whole number of bytes of stream bits, `B_k[7-j] = W[8k+j]` with MSB_FIRST, `B_k[j] = W[8k+j]` with LSB_FIRST
(R36, R37). Bits after the last whole byte are not in it; `SnkClose` leaves none. -/
def packBytes (o : BitOrder) : List Bit → List Byte
  | b0 :: b1 :: b2 :: b3 :: b4 :: b5 :: b6 :: b7 :: rest =>
    recordOfBits o [b0, b1, b2, b3, b4, b5, b6, b7] :: packBytes o rest
  | _ => []

/-- The stream bits of an input that comes as bytes (R25; 92_eei_decisions.md D20). -/
def unpackBytes (o : BitOrder) (bytes : List Byte) : List Bit := bytes.flatMap (bitsOfRecord o)

/-! ### Input items to operations -/

/-- Why the decoder gives no operation. -/
inductive Reject where
  /-- DEC's source holds 1 to 7 bits, too few for a record (R39, R52). -/
  | partialRecord
  deriving DecidableEq, Repr

/-- An ENC input bit: always E.BIT (R49). -/
def decodeBit (b : Bit) : Instr := .eBit b

/-- A count record: D.CONT when it is 255, else D.RUN (R54). -/
def decodeRecord (c : Record) : Instr := if c = contValue then .dCont else .dRun c

/-- The end-of-input event (R52). -/
def decodeEnd : Block → Instr
  | .enc => .eEnd
  | .dec => .dEnd

/-- The decoder, total on any bits: the operation that the bits left in the source of a block stand for, and the bits after its
item (R49 to R54). Whether DEC's state lets D.END run is the machine's question (R52, R68), not the decoder's. -/
def decode (o : BitOrder) : Block → List Bit → Except Reject (Instr × List Bit)
  | .enc, [] => .ok (decodeEnd .enc, [])
  | .enc, b :: rest => .ok (decodeBit b, rest)
  | .dec, [] => .ok (decodeEnd .dec, [])
  | .dec, b :: bs =>
    if (b :: bs).length < recordWidth then .error .partialRecord
    else .ok (decodeRecord (recordOfBits o ((b :: bs).take recordWidth)), (b :: bs).drop recordWidth)

/-- The encoder: the input bits that select an operation (R49, R50, R52; opcode_table.json). -/
def encode (o : BitOrder) : Instr → List Bit
  | .eBit b => [b]
  | .eEnd => []
  | .dCont => bitsOfRecord o contValue
  | .dRun c => bitsOfRecord o c
  | .dEnd => []

/-! ### The host's questions about the opcode table -/

/-- The block and the stream bits of an item whose table bits are `w` (bit 0 the least significant): a 1-bit item is ENC's
(ENC_IN), an 8-bit one DEC's (REC8), and one of no bits is the end of ENC's input. The table has no item of another width.
E.END and D.END share the width 0, and a table width rounded up to bytes cannot tell E.BIT from REC8 (log 4). -/
def tableItem (o : BitOrder) (nbits w : Nat) : Option (Block × List Bit) :=
  if nbits = 0 then some (.enc, [])
  else if nbits = 1 then some (.enc, bitsOfUint o w 1)
  else if nbits = recordWidth then some (.dec, bitsOfUint o w recordWidth)
  else none

/-- The operation the decoder reads from an item whose bits are `w`, numbered as spec/opcode_table.json numbers them. -/
def decodeTableWord (nbits w : Nat) : Option Instr :=
  match tableItem .msbFirst nbits w with
  | none => none
  | some (blk, bits) =>
    match decode .msbFirst blk bits with
    | .ok (i, _) => some i
    | .error _ => none

end Sys2Proof
end

