-- ==== Sys2Proof/Machine/Ops.lean ====
section
/-! DEFINITION. The named operations of the machine: the six stream primitives (spec/20_memory.md R29 to R36), the running block's
source and sink, raising a fault (spec/60_exceptions.md R80), and launching an invocation (spec/70_reset_and_hazards.md R94 to
R97). There is no return from a fault (R84): the only way out is a launch. -/

namespace Sys2Proof.Machine

/-! ### Source primitives -/

/-- The bits of the source not consumed yet. -/
def remaining (x : Source) : List Bit := x.bits.drop x.pos

/-- `SrcIsEmpty()` (R29). The rule says `pos = len(S)`; `pos` never exceeds it (R25), and the order covers both (log 15). -/
def srcIsEmpty (x : Source) : Bool := decide (x.bits.length ≤ x.pos)

/-- `SrcReadBit()` (R30). -/
def srcReadBit (x : Source) : Except Cause (Bit × Source) :=
  match remaining x with
  | [] => .error .srcExhausted
  | b :: _ => .ok (b, { x with pos := x.pos + 1 })

/-- `SrcReadUint(w)` (R31). -/
def srcReadUint (o : BitOrder) (w : Nat) (x : Source) : Except Cause (Nat × Source) :=
  if srcIsEmpty x then .error .srcExhausted
  else if x.bits.length - x.pos < w then .error .srcShort
  else .ok (uintOfBits o ((remaining x).take w), { x with pos := x.pos + w })

/-! ### Sink primitives -/

/-- Appending bits to `W` in the order given (R32, for `closed = 0`). DESIGN CHOICE (log 21): a sink that is already closed takes
the bits all the same, a case the spec leaves open and no run reaches. -/
def snkAppend (bits : List Bit) (k : Sink) : Sink := { k with written := k.written ++ bits }

/-- `SnkWriteBit(b)` (R33). -/
def snkWriteBit (b : Bit) (k : Sink) : Sink := snkAppend [b] k

/-- `repeat n: SnkWriteBit(b)` (R12, R33): n copies of one bit, and nothing for n = 0. -/
def snkRepeatBit (n : Nat) (b : Bit) (k : Sink) : Sink := snkAppend (List.replicate n b) k

/-- `SnkWriteUint(v, w)` (R34). -/
def snkWriteUint (o : BitOrder) (v w : Nat) (k : Sink) : Sink := snkAppend (bitsOfUint o v w) k

/-- The number of zero bits `SnkClose` pads with (R35). -/
def padLength (n : Nat) : Nat := (8 - n % 8) % 8

/-- `SnkClose()`: pad with zero bits to a whole byte, close, deliver `W` as bytes (R35, R36). DESIGN CHOICE (log 21): a second close,
outside the contract (R41) and never issued, pads and delivers again. -/
def snkClose (o : BitOrder) (k : Sink) : Sink :=
  let padded := snkRepeatBit (padLength k.written.length) padBit k
  { padded with closed := true, delivered := some (packBytes o padded.written) }

/-- A sink the host has discarded: it holds nothing and promises nothing. Whether it accepts is as before (R91; log 22). -/
def discarded (k : Sink) : Sink := ⟨[], false, none, k.stalled⟩

/-! ### The running block's source and sink -/

/-- The source of the running block. -/
def State.src (s : State) : Source :=
  match s.running with
  | .enc => s.encSrc
  | .dec => s.decSrc

/-- The sink of the running block. -/
def State.snk (s : State) : Sink :=
  match s.running with
  | .enc => s.encSnk
  | .dec => s.decSnk

/-- The same state with another source for the running block. -/
def State.setSrc (s : State) (x : Source) : State :=
  match s.running with
  | .enc => s.setEncSrc x
  | .dec => s.setDecSrc x

/-- The same state with another sink for the running block. -/
def State.setSnk (s : State) (k : Sink) : State :=
  match s.running with
  | .enc => s.setEncSnk k
  | .dec => s.setDecSnk k

/-- The running block is in phase ACTIVE (R18, R21). -/
def State.isActive (s : State) : Bool :=
  match s.running with
  | .enc => s.enc.phase == .active
  | .dec => s.dec.phase == .active

/-- The running block is ACTIVE after its first step: a first step that leaves it ACTIVE has consumed input (R96; log 12). -/
def State.midRun (s : State) : Bool := s.isActive && decide (0 < s.src.pos)

/-! ### Taking a fault -/

/-- `raise Fault(cause, pos)` (R80): no sink write, no close, no source bit consumed; `bit` and `chain` keep their values. -/
def raiseFault (cause : Cause) (pos : Nat) (s : State) : State :=
  s.setDec { s.dec with phase := .fault, cause := cause, faultPos := pos }

/-! ### Launching an invocation -/

/-- The host attaches a source that holds the whole input (R97, 1). -/
def attachSource (blk : Block) (input : List Bit) (s : State) : State :=
  match blk with
  | .enc => s.setEncSrc (Source.attached input)
  | .dec => s.setDecSrc (Source.attached input)

/-- The host attaches an empty and open sink (R97, 2). -/
def attachSink (blk : Block) (s : State) : State :=
  match blk with
  | .enc => s.setEncSnk Sink.attached
  | .dec => s.setDecSnk Sink.attached

/-- Reset of a block: every register takes its reset value (R94, R95, R97, 3). The other block keeps its state (R4). -/
def applyReset (blk : Block) (s : State) : State :=
  match blk with
  | .enc => s.setEnc EncRegs.reset
  | .dec => s.setDec DecRegs.reset

/-- The boot sequence of R97, in its order, for an invocation of one block (R4, R90). -/
def launch (blk : Block) (input : List Bit) (s : State) : State :=
  applyReset blk (attachSink blk (attachSource blk input (s.setRunning blk)))

/-- A launch unless a run is under way (R96). -/
def tryLaunch (blk : Block) (input : List Bit) (s : State) : Result :=
  if s.midRun then .refused .resetDuringRun else .next (launch blk input s)

end Sys2Proof.Machine
end

