-- ==== Sys2Proof/Machine/Operands.lean ====
section
/-! DEFINITION. The operand forms (spec/30_encoding.md R49, R50, R51): how each block reads its next input item from its own source.
The blocks have no other operand and no addressing mode. -/

namespace Sys2Proof.Machine

/-- ENC's operand: the next input bit, and the machine with it consumed (R49, R62 `b <- SrcReadBit()`). -/
def readInputBit (s : State) : Except Cause (Bit × State) :=
  match srcReadBit s.encSrc with
  | .ok (b, x) => .ok (b, s.setEncSrc x)
  | .error cause => .error cause

/-- DEC's operand: the next count record, zero-extended and unscaled, and the machine with it consumed (R50, R51, R68
`c <- SrcReadUint(8)`). -/
def readRecord (s : State) : Except Cause (Record × State) :=
  match srcReadUint s.bitOrder recordWidth s.decSrc with
  | .ok (v, x) => .ok (BitVec.ofNat recordWidth v, s.setDecSrc x)
  | .error cause => .error cause

/-- ENC's result operand: one record appended to its own sink (R51 `SnkWriteUint(count, 8)`). -/
def writeRecord (c : Record) (s : State) : State :=
  s.setEncSnk (snkWriteUint s.bitOrder c.toNat recordWidth s.encSnk)

/-- DEC's result operand: n copies of the implied bit appended to its own sink (R69, R70 `repeat n: SnkWriteBit(bit)`). -/
def writeCopies (n : Nat) (s : State) : State :=
  s.setDecSnk (snkRepeatBit n s.dec.bit s.decSnk)

end Sys2Proof.Machine
end

