-- ==== Sys2Proof/Machine/Select.lean ====
section
/-! DEFINITION. Step selection (spec/40_encoder.md R60, spec/41_decoder.md R68): from the phase, the source and, for a block that is
about to write, the sink, which one of these the running block does in its turn: an operation, a fault, a hold, or nothing more.
It also holds `issue`, through which every meaning runs, so that an operation has its effect only where R53 selects it. -/

namespace Sys2Proof.Machine

/-- What the running block does in its turn. -/
inductive Selection where
  /-- It runs an operation, from the state in which the operation's input item has been read. -/
  | run (i : Instr) (afterRead : State)
  /-- A required read cannot be satisfied (R81). -/
  | raise (cause : Cause) (pos : Nat)
  /-- The source cannot answer, or the sink cannot accept: no state changes (R86). -/
  | hold
  /-- The run has ended: no step until the next reset (R18, R21). -/
  | ended (why : Fault)
  deriving DecidableEq, Repr

/-- An operation calls a sink primitive in this state (R62, R63, R69, R70, R71). -/
def writesSink (i : Instr) (s : State) : Bool :=
  match i with
  | .eBit b => mustEmit b s.enc
  | .eEnd => true
  | .dCont => true
  | .dRun c => c != 0#8
  | .dEnd => true

/-- The selected operation, unless it needs a sink that cannot accept yet (R48, R86; log 6). -/
def gate (i : Instr) (s : State) : Selection :=
  if s.snk.stalled && writesSink i s then .hold else .run i s

/-- ENC's step selection (R60). The read after `SrcIsEmpty() = 0` never fails; its other arm only makes the function total. -/
def selectEnc (s : State) : Selection :=
  match s.enc.phase with
  | .done => .ended .encDone
  | .active =>
    if s.encSrc.stalled then .hold
    else if srcIsEmpty s.encSrc then gate (decodeEnd .enc) s
    else match readInputBit s with
      | .ok (b, s') => gate (decodeBit b) s'
      | .error _ => gate (decodeEnd .enc) s

/-- DEC's step selection (R68, R81). -/
def selectDec (s : State) : Selection :=
  match s.dec.phase with
  | .done => .ended .decDone
  | .fault => .ended .decFault
  | .active =>
    if s.decSrc.stalled then .hold
    else if srcIsEmpty s.decSrc then
      if s.dec.chain then .raise .srcExhausted s.decSrc.pos else gate (decodeEnd .dec) s
    else match readRecord s with
      | .ok (c, s') => gate (decodeRecord c) s'
      | .error cause => .raise cause s.decSrc.pos

/-- Step selection of the running block (R53). -/
def select (s : State) : Selection :=
  match s.running with
  | .enc => selectEnc s
  | .dec => selectDec s

/-- Running an operation where it is selected: its effect on the state in which its item has been read. While the block holds,
nothing changes (R86). An operation that the state does not select has no meaning in the spec (R53; log 9). -/
def issue (i : Instr) (s : State) (effect : State → State) : Result :=
  match select s with
  | .run j afterRead => if j = i then .next (effect afterRead) else .refused .notSelected
  | .raise _ _ => .refused .notSelected
  | .hold => .next s
  | .ended why => .fault why

end Sys2Proof.Machine
end

