-- ==== Sys2Proof/Machine/Decoder.lean ====
section
/-! DEFINITION. The operations of run_length_decoder (spec/41_decoder.md). None writes a flag, and none raises a fault once it is
selected (R81). -/

namespace Sys2Proof.Machine

/-- D.CONT after its record is read (R69): 255 copies of `bit`, `chain <- 1`; `bit` is not written. -/
def dContEffect (s : State) : State :=
  let copied := writeCopies contValue.toNat s
  copied.setDec { copied.dec with chain := true }

/-- D.RUN after its record is read (R70): c copies of `bit`, `bit <- ~bit`, `chain <- 0`. -/
def dRunEffect (c : Record) (s : State) : State :=
  let copied := writeCopies c.toNat s
  copied.setDec { copied.dec with bit := !copied.dec.bit, chain := false }

/-- D.END (R71): close the sink, end. -/
def dEndEffect (s : State) : State :=
  let closed := s.setDecSnk (snkClose s.bitOrder s.decSnk)
  closed.setDec { closed.dec with phase := .done }

/-- The meaning of D.CONT (R68, R69). -/
def execDCont (s : State) : Result := issue .dCont s dContEffect

/-- The meaning of D.RUN (R68, R70). -/
def execDRun (c : Record) (s : State) : Result := issue (.dRun c) s (dRunEffect c)

/-- The meaning of D.END (R68, R71). -/
def execDEnd (s : State) : Result := issue .dEnd s dEndEffect

end Sys2Proof.Machine
end

