-- ==== Sys2Proof/Machine/Encoder.lean ====
section
/-! DEFINITION. The operations of run_length_encoder (spec/40_encoder.md). Neither writes a flag nor raises a fault (R82). -/

namespace Sys2Proof.Machine

/-- `EmitRun()` (R61): one record with the current count. The loop `while count > 255` never iterates for an 8-bit count and is
dropped, as R61 allows (log 14). -/
def emitRun (s : State) : State := writeRecord s.enc.count s

/-- What E.BIT does when it emits: EmitRun, `count <- 0`, `lastBit <- b` (R62). -/
def startRun (b : Bit) (s : State) : State :=
  let emitted := emitRun s
  emitted.setEnc { emitted.enc with count := 0#8, lastBit := b }

/-- `count <- count + 1` (R62). -/
def countBit (s : State) : State := s.setEnc { s.enc with count := s.enc.count + 1#8 }

/-- E.BIT after its bit is read (R62). -/
def eBitEffect (b : Bit) (s : State) : State :=
  countBit (if mustEmit b s.enc then startRun b s else s)

/-- E.END (R63): flush a pending count, close the sink, end. `count` and `lastBit` keep their values (log 16). -/
def eEndEffect (s : State) : State :=
  let flushed := if hasPending s.enc then emitRun s else s
  let closed := flushed.setEncSnk (snkClose flushed.bitOrder flushed.encSnk)
  closed.setEnc { closed.enc with phase := .done }

/-- The meaning of E.BIT (R60, R62). -/
def execEBit (b : Bit) (s : State) : Result := issue (.eBit b) s (eBitEffect b)

/-- The meaning of E.END (R60, R63). -/
def execEEnd (s : State) : Result := issue .eEnd s eEndEffect

end Sys2Proof.Machine
end

