-- ==== Sys2Proof/Machine/Dispatch.lean ====
section
/-! DEFINITION. The meaning of each operation of spec/opcode_table.json (spec/30_encoding.md R53), one arm per constructor. -/

namespace Sys2Proof.Machine

def exec (i : Instr) (s : State) : Host.Outcome State Fault Refusal :=
  match i with
  | .eBit b => Sys2Proof.Machine.execEBit b s
  | .eEnd => Sys2Proof.Machine.execEEnd s
  | .dCont => Sys2Proof.Machine.execDCont s
  | .dRun c => Sys2Proof.Machine.execDRun c s
  | .dEnd => Sys2Proof.Machine.execDEnd s

end Sys2Proof.Machine
end

