-- ==== Sys2Proof/Machine/Turns.lean ====
section
/-! DEFINITION. The turns of a run: a turn of the running block (spec/40_encoder.md R60, spec/41_decoder.md R68) and a turn of the
host (spec/60_exceptions.md R86, R87, R91; spec/70_reset_and_hazards.md R94 to R100). -/

namespace Sys2Proof.Machine

/-- One turn of the running block: the selected operation, the fault, a hold, or no step. -/
def blockTurn (s : State) : Result :=
  match select s with
  | .run i _ => exec i s
  | .raise cause pos => .next (raiseFault cause pos s)
  | .hold => .next s
  | .ended why => .fault why

/-- The source ended out of band (R87): what is not consumed yet is gone. A source that cannot answer still cannot: ending it is a
liberty of the host, and only its answer lifts the hold (R91; log 7). -/
def endOfSource (x : Source) : Source := { x with bits := x.bits.take x.pos, ending := false }

/-- The block would hold for its sink's acceptance even if its source answered (R86). -/
def waitsForSink (s : State) : Bool :=
  match select (s.setSrc { s.src with stalled := false }) with
  | .run _ _ => false
  | .raise _ _ => false
  | .hold => true
  | .ended _ => false

/-- The host ends the source of the running block out of band (R87). A block that waits for its sink is not let move by it (R91): it
waits on, and the end takes effect when the sink accepts (log 7). After DONE or FAULT the move has no effect. -/
def endSource (s : State) : State :=
  if s.isActive then
    if waitsForSink s then s.setSrc { s.src with ending := true } else s.setSrc (endOfSource s.src)
  else s

/-- The sink accepts again, and an end of the source that was waiting for it takes effect (R86, R91; log 7). -/
def acceptSink (s : State) : State :=
  let accepting := s.setSnk { s.snk with stalled := false }
  if s.isActive && s.src.ending then accepting.setSrc (endOfSource s.src) else accepting

/-- One turn of the host (R91). -/
def hostTurn (m : HostMove) (s : State) : Result :=
  match m with
  | .stallSource => .next (s.setSrc { s.src with stalled := true })
  | .answerSource => .next (s.setSrc { s.src with stalled := false })
  | .stallSink => .next (s.setSnk { s.snk with stalled := true })
  | .acceptSink => .next (acceptSink s)
  | .endSource => .next (endSource s)
  | .launch (some blk) input => tryLaunch blk input s
  | .launch none _ => .refused .invalidSelector
  | .pipeline =>
    match s.encSnk.delivered with
    | some bytes => tryLaunch .dec (unpackBytes s.bitOrder bytes) s
    | none => .refused .outputNotDelivered
  | .discardSink =>
    if s.dec.phase = .fault then .next (s.setDecSnk (discarded s.decSnk)) else .refused .hostBreach
  | .changeInput => .refused .hostBreach
  | .writeSink => .refused .hostBreach
  | .closeSink => .refused .hostBreach
  | .failSink => .refused .sinkFailed

/-- Whose turn it is: the oldest scheduled one, else the block's (log 5). -/
def nextTurn (s : State) : Turn :=
  match s.schedule with
  | [] => .block
  | t :: _ => t

/-- The state with the oldest scheduled turn taken off. -/
def popTurn (s : State) : State := s.setSchedule s.schedule.tail

/-- One step: the turn of whoever moves next. -/
def oneStep (s : State) : Result :=
  match nextTurn s with
  | .block => blockTurn (popTurn s)
  | .host m => hostTurn m (popTurn s)

/-- An item placed where the next step of a block reads it: its source holds exactly these bits, nothing is consumed, the block is
ACTIVE and can proceed, and the next turn is its own. Registers, sinks' contents and the other block keep their values (log 4). -/
def placeItem (blk : Block) (bits : List Bit) (s : State) : State :=
  match blk with
  | .enc => { s with
      running := .enc, schedule := [], encSrc := Source.attached bits,
      enc := { s.enc with phase := .active }, encSnk := { s.encSnk with stalled := false } }
  | .dec => { s with
      running := .dec, schedule := [], decSrc := Source.attached bits,
      dec := { s.dec with phase := .active }, decSnk := { s.decSnk with stalled := false } }

/-- The table item placed so (decodeTableWord's numbering); a width the table has no item of places nothing. -/
def placeTableItem (s : State) (nbits w : Nat) : State :=
  match tableItem s.bitOrder nbits w with
  | some (blk, bits) => placeItem blk bits s
  | none => s

end Sys2Proof.Machine
end

