-- ==== Sys2Proof/Machine/Step.lean ====
section
/-! DEFINITION. The step of the machine and the placing of an instruction for the host's questions (log 4, log 5). -/

namespace Sys2Proof.Machine

/-- One step of the machine (R12): a turn of the running block or of the host. -/
def step : State → Host.Outcome State Fault Refusal := oneStep

/-- The state with the instruction of bits `w` stored where the next step reads its input item. -/
def State.withFetchWord (s : State) (nbits w : Nat) : State := placeTableItem s nbits w

end Sys2Proof.Machine
end

