-- ==== Sys2Proof/Safety.lean ====
section
/-! DEFINITION. What counts as an end and an observation of a run (spec/60_exceptions.md R89), the invariants of the machine, and the
closed forms that the spec derives for whole runs, written from its words and not from the machine: runs and records
(spec/30_encoding.md R59, spec/40_encoder.md R64), the decoder's output (spec/41_decoder.md R74), the round trip (R75), and the two
algorithms read literally (R61, R62, R72). -/

namespace Sys2Proof.Safety

open Sys2Proof.Machine

/-! ### The end of a run and its observation (R89) -/

/-- What is observed at the end of a run: the delivered bytes after DONE, the cause and the position after FAULT, nothing else. -/
inductive Observation where
  | delivered (bytes : List Byte)
  | failed (cause : Cause) (pos : Nat)
  deriving DecidableEq, Repr

/-- The observation of the running block; `none` while its run has not ended. -/
def observe (s : State) : Option Observation :=
  match s.running with
  | .enc =>
    match s.enc.phase with
    | .active => none
    | .done => s.encSnk.delivered.map .delivered
  | .dec =>
    match s.dec.phase with
    | .active => none
    | .done => s.decSnk.delivered.map .delivered
    | .fault => some (.failed s.dec.cause s.dec.faultPos)

/-- The running block never waits: its source answers, its sink accepts, and the host takes no turn (R86, R89). -/
def Undisturbed (s : State) : Prop := s.schedule = [] ∧ s.src.stalled = false ∧ s.snk.stalled = false

/-- ENC may take a step: it is the running block, ACTIVE, and its source answers (R60). -/
def EncReady (s : State) : Prop := s.running = .enc ∧ s.enc.phase = .active ∧ s.encSrc.stalled = false

/-- DEC may take a step: it is the running block, ACTIVE, and its source answers (R68). -/
def DecReady (s : State) : Prop := s.running = .dec ∧ s.dec.phase = .active ∧ s.decSrc.stalled = false

/-- `k` steps of the machine, stopping at the first stop. -/
def runSteps : Nat → State → Host.Outcome State Fault Refusal
  | 0, s => .next s
  | k + 1, s =>
    match step s with
    | .next s' => runSteps k s'
    | .fault r => .fault r
    | .refused r => .refused r

/-! ### Invariants -/

/-- The cursor of a source is in the input (R25 `0 <= pos <= len(S)`). -/
def SourceOk (x : Source) : Prop := x.pos ≤ x.bits.length

/-- A closed sink holds whole bytes and has delivered exactly them; an open one has promised nothing (R35, R36, R99). -/
def SinkOk (o : BitOrder) (k : Sink) : Prop :=
  (k.closed = true → k.written.length % 8 = 0 ∧ k.delivered = some (packBytes o k.written)) ∧
  (k.closed = false → k.delivered = none)

/-- ENC writes whole records, and its sink is closed exactly when it is DONE (R66, R67, R98). -/
def EncOk (s : State) : Prop :=
  (s.enc.phase = .done ↔ s.encSnk.closed = true) ∧ s.encSnk.written.length % 8 = 0

/-- DEC's control and fault registers agree (R20 to R22, R38, R79, R98): closed exactly when DONE, a cause exactly in FAULT, a
record boundary at the cursor, and `fault_pos` where the cause says it is. -/
def DecOk (s : State) : Prop :=
  (s.dec.phase = .done ↔ s.decSnk.closed = true) ∧
  (s.dec.phase = .fault ↔ s.dec.cause ≠ .none) ∧
  (s.dec.phase ≠ .fault → s.dec.faultPos = 0 ∧ s.decSrc.pos % 8 = 0) ∧
  (s.dec.phase = .done → s.dec.chain = false) ∧
  s.dec.faultPos % 8 = 0 ∧
  (s.dec.cause = .srcExhausted → s.dec.chain = true ∧ s.dec.faultPos = s.decSrc.bits.length) ∧
  (s.dec.cause = .srcShort →
    s.dec.faultPos < s.decSrc.bits.length ∧ s.decSrc.bits.length < s.dec.faultPos + 8)

/-- The invariant of the machine: streams, sinks and control registers are as the rules leave them. -/
def Inv (s : State) : Prop :=
  SourceOk s.encSrc ∧ SourceOk s.decSrc ∧ SinkOk s.bitOrder s.encSnk ∧ SinkOk s.bitOrder s.decSnk ∧ EncOk s ∧ DecOk s

/-- The count invariant of R64 (a): `count` is 0 before the first E.BIT and in 1..255 after every E.BIT; and as long as it is 0,
`lastBit` has its reset value. -/
def CountOk (s : State) : Prop :=
  (s.enc.count = 0#8 ↔ s.encSrc.pos = 0) ∧ (s.enc.count = 0#8 → s.enc.lastBit = initialBit)

/-! ### The order of bits on the stream (R31, R34, R36, R37) -/

/-- Which bit of a w-bit value is the i-th on the stream. -/
def valueBit (o : BitOrder) (w i : Nat) : Nat :=
  match o with
  | .msbFirst => w - 1 - i
  | .lsbFirst => i

/-! ### Runs and records (R59, R64) -/

/-- The maximal runs of a bit sequence, each with its value and its length (R14 "Run"). -/
def runsOf : List Bit → List (Bit × Nat)
  | [] => []
  | b :: bs =>
    match runsOf bs with
    | [] => [(b, 1)]
    | (v, n) :: rest => if b = v then (v, n + 1) :: rest else (b, 1) :: (v, n) :: rest

/-- `enc_run(L)`: `[255]^q ++ [L - 255*q]` with `q = (L - 1) div 255` (R59, R64 (b)). -/
def encRun (len : Nat) : List Record :=
  List.replicate ((len - 1) / 255) 255#8 ++ [BitVec.ofNat 8 (len - 255 * ((len - 1) / 255))]

/-- `chain(L)`: the well-formed chain of a run (R59). -/
def chainOf (len : Nat) : List Record := List.replicate (len / 255) 255#8 ++ [BitVec.ofNat 8 (len % 255)]

/-- The leading record: `[0]` when the first run is of ones (R64 (b)). -/
def leadingRecord : List (Bit × Nat) → List Record
  | (true, _) :: _ => [0#8]
  | _ => []

/-- ENC's records for an input (R64 (b)). -/
def encRecords (input : List Bit) : List Record :=
  leadingRecord (runsOf input) ++ (runsOf input).flatMap fun r => encRun r.2

/-- A run whose length is a positive multiple of 255 (R14 "Defective run"). -/
def defective (len : Nat) : Bool := decide (0 < len) && decide (len % 255 = 0)

/-! ### The decoder's output (R73, R74, R75) -/

/-- `f mod 2` for the records before a point: the implied bit there (R74). -/
def impliedBit (before : List Record) : Bit := decide ((before.filter fun c => c != 255#8).length % 2 = 1)

/-- DEC's output for records executed in order: record i gives `ci` copies of `f(i) mod 2` (R74). -/
def decodedBits (records : List Record) : List Bit :=
  (List.range records.length).flatMap fun i => List.replicate (records.getD i 0).toNat (impliedBit (records.take i))

/-- The bits that pad an output to whole bytes (R35). -/
def padded (bits : List Bit) : List Bit := bits ++ List.replicate ((8 - bits.length % 8) % 8) padBit

/-- Run j comes out as `Lj` copies of `vj XOR (dj mod 2)`, `dj` the number of defective runs before it (R75, 4). -/
def roundTripBits (runs : List (Bit × Nat)) : List Bit :=
  (List.range runs.length).flatMap fun j =>
    let run := runs.getD j (false, 0)
    List.replicate run.2 (xor run.1 (decide (((runs.take j).filter fun r => defective r.2).length % 2 = 1)))

/-! ### Invariants that tie a block's output to the input it has consumed -/

/-- While ENC is ACTIVE, its sink holds the records of the consumed input but for the last, which is pending in `count`, and
`lastBit` is the last consumed bit (R16, R17, R64). -/
def EncTracks (s : State) : Prop :=
  s.enc.phase = .active →
    (s.encSrc.pos = 0 → s.encSnk.written = [] ∧ s.enc.count = 0#8 ∧ s.enc.lastBit = initialBit) ∧
    (s.encSrc.pos ≠ 0 → ∃ records,
      encRecords (s.encSrc.bits.take s.encSrc.pos) = records ++ [s.enc.count] ∧
      s.encSnk.written = unpackBytes s.bitOrder records ∧
      (s.encSrc.bits.take s.encSrc.pos).getLast? = some s.enc.lastBit)

/-- The whole records a DEC source holds in the bits consumed so far (R38). -/
def consumedRecords (s : State) : List Record := packBytes s.bitOrder (s.decSrc.bits.take s.decSrc.pos)

/-- While DEC is ACTIVE, its sink, `bit` and `chain` are what the consumed records say (R19, R20, R38, R74). -/
def DecTracks (s : State) : Prop :=
  s.dec.phase = .active →
    s.decSrc.pos % 8 = 0 ∧
    s.decSnk.written = decodedBits (consumedRecords s) ∧
    s.dec.bit = impliedBit (consumedRecords s) ∧
    (s.dec.chain = true ↔ (consumedRecords s).getLast? = some 255#8)

/-! ### The two algorithms read literally -/

/-- EmitRun with an unbounded count, its `while count > 255` loop kept (R61); the fuel bounds the iterations of the loop. -/
def literalEmitRun (o : BitOrder) : Nat → Nat → Sink → Sink
  | 0, _, k => k
  | fuel + 1, count, k =>
    if 255 < count then literalEmitRun o fuel (count - 255) (snkWriteUint o 255 8 k)
    else snkWriteUint o count 8 k

/-- The encoder's algorithm over its input, with an unbounded count (R61 to R63, R65). -/
def literalEncoder (o : BitOrder) : List Bit → Bit → Nat → Sink → Sink
  | [], _, count, k => snkClose o (if 0 < count then literalEmitRun o (count + 1) count k else k)
  | b :: rest, lastBit, count, k =>
    if b ≠ lastBit ∨ (255 ≤ count ∧ b = lastBit) then
      literalEncoder o rest b 1 (literalEmitRun o (count + 1) count k)
    else literalEncoder o rest lastBit (count + 1) k

/-- How the literal decoder ends: the final `bit` and sink, or the failed read and its position. -/
abbrev LiteralEnd := Except (Cause × Nat) (Bit × Sink)

/-- The inner loop of R72: `c <- SrcReadUint(8)`, and while it is 255 write 255 copies and read again, unconditionally. It gives the
first record that is not 255, with the source and the sink at that point. -/
def literalChain (o : BitOrder) : Nat → Bit → Source → Sink → Except (Cause × Nat) (Nat × Source × Sink)
  | 0, _, x, _ => .error (.none, x.pos)
  | fuel + 1, bit, x, k =>
    match srcReadUint o 8 x with
    | .error cause => .error (cause, x.pos)
    | .ok (c, x') => if c = 255 then literalChain o fuel bit x' (snkRepeatBit 255 bit k) else .ok (c, x', k)

/-- The outer loop of R72. The fuel bounds the iterations of each loop; one more than the number of bits is enough. -/
def literalDecoder (o : BitOrder) : Nat → Bit → Source → Sink → LiteralEnd
  | 0, _, x, _ => .error (.none, x.pos)
  | fuel + 1, bit, x, k =>
    if srcIsEmpty x then .ok (bit, snkClose o k)
    else
      match literalChain o (x.bits.length + 1) bit x k with
      | .error e => .error e
      | .ok (c, x', k') => literalDecoder o fuel (!bit) x' (snkRepeatBit c bit k')

end Sys2Proof.Safety
end

