-- ==== Sys2Proof/Certificates/Slice0/Obligations.lean ====
section
/-! DEFINITION. The statements about the machine, for the provers. Each says which rule of spec/ it formalises, or on what it rests. -/

section

open Sys2Proof Sys2Proof.Machine Sys2Proof.Safety

/-! ### Reset and launch -/

/-- R95: every piece of state and its value after reset, for ENC and for DEC launched on an input from any state of the machine. -/
def Obligations.ResetGivesTheStatedValues : Prop :=
  ∀ (s : State) (input : List Bit),
    ((launch .enc input s).enc.lastBit = false ∧ (launch .enc input s).enc.count = 0#8 ∧
      (launch .enc input s).enc.phase = .active ∧ (launch .enc input s).encSrc.bits = input ∧
      (launch .enc input s).encSrc.pos = 0 ∧ (launch .enc input s).encSnk.written = [] ∧
      (launch .enc input s).encSnk.closed = false) ∧
    ((launch .dec input s).dec.bit = false ∧ (launch .dec input s).dec.chain = false ∧
      (launch .dec input s).dec.phase = .active ∧ (launch .dec input s).dec.cause = .none ∧
      (launch .dec input s).dec.faultPos = 0 ∧ (launch .dec input s).decSrc.bits = input ∧
      (launch .dec input s).decSrc.pos = 0 ∧ (launch .dec input s).decSnk.written = [] ∧
      (launch .dec input s).decSnk.closed = false)

/-- R95 at the state the machine starts from: both blocks have their reset values, both sinks are empty and open. That its inputs are
empty and that ENC is the running block are the model's choices (log 1, log 3) and are not stated. -/
def Obligations.StartStateIsReset : Prop :=
  State.reset.enc = ⟨false, 0#8, .active⟩ ∧ State.reset.dec = ⟨false, false, .active, .none, 0⟩ ∧
  State.reset.encSrc.pos = 0 ∧ State.reset.decSrc.pos = 0 ∧
  State.reset.encSnk.written = [] ∧ State.reset.encSnk.closed = false ∧
  State.reset.decSnk.written = [] ∧ State.reset.decSnk.closed = false

/-- R94, R96, R97: a launch by the host starts the block on the input, except during a run (ACTIVE, some input consumed), where it is
refused. That "after the first step" is "some input consumed" is the model's reading (log 12). -/
def Obligations.LaunchStartsOrIsRefusedDuringARun : Prop :=
  ∀ (s : State) (blk : Block) (input : List Bit), nextTurn s = .host (.launch (some blk) input) →
    if s.isActive = true ∧ 0 < s.src.pos then step s = .refused .resetDuringRun
    else step s = .next (launch blk input (popTurn s))

/-! ### Stream primitives -/

/-- R31: SrcReadUint fails on no bit, fails on too few, and otherwise gives the sum of weighted bits and moves the cursor by w. -/
def Obligations.SrcReadUintSumsWeightedBits : Prop :=
  ∀ (o : BitOrder) (w : Nat) (x : Source), x.pos ≤ x.bits.length →
    if x.pos = x.bits.length then srcReadUint o w x = .error .srcExhausted
    else if x.bits.length - x.pos < w then srcReadUint o w x = .error .srcShort
    else ∃ v, srcReadUint o w x = .ok (v, { x with pos := x.pos + w }) ∧ v ≤ 2 ^ w - 1 ∧
      v = ∑ i ∈ Finset.range w, (x.bits.getD (x.pos + i) false).toNat * 2 ^ valueBit o w i

/-- R34: SnkWriteUint appends the bits of the value, the most significant first, or the least with LSB_FIRST; and the value that
SrcReadUint reads from them is the value written.
That the value reads back is marked derived in R34. -/
def Obligations.SnkWriteUintAppendsAndReadsBack : Prop :=
  ∀ (o : BitOrder) (v w : Nat) (k : Sink), v ≤ 2 ^ w - 1 →
    snkWriteUint o v w k = { k with
      written := k.written ++ (List.range w).map fun i => v.testBit (valueBit o w i) } ∧
    ∀ (x : Source) (rest : List Bit), 0 < w → remaining x = bitsOfUint o v w ++ rest →
      srcReadUint o w x = .ok (v, { x with pos := x.pos + w })

/-- R35: SnkClose pads with zero bits to a whole byte, closes, and delivers `len(W)/8` bytes.
`delivered` is the model's name for what the destination holds (log 11). -/
def Obligations.SnkClosePadsToWholeBytes : Prop :=
  ∀ (o : BitOrder) (k : Sink),
    (snkClose o k).written = k.written ++ List.replicate ((8 - k.written.length % 8) % 8) false ∧
    (snkClose o k).written.length % 8 = 0 ∧ (snkClose o k).closed = true ∧
    (k.written.length % 8 = 0 → (snkClose o k).written = k.written) ∧
    ∃ bytes, (snkClose o k).delivered = some bytes ∧ bytes.length = (snkClose o k).written.length / 8

/-- R36, R37: bit j of the byte k of the delivered output is `W[8k + 7 - j]` with MSB_FIRST and `W[8k + j]` with LSB_FIRST.
`delivered` is the model's name for what the destination holds (log 11). -/
def Obligations.DeliveredBytesHoldTheWrittenBits : Prop :=
  ∀ (o : BitOrder) (k : Sink), ∃ bytes, (snkClose o k).delivered = some bytes ∧
    bytes.length = (snkClose o k).written.length / 8 ∧
    ∀ n j, n < bytes.length → j < 8 →
      (bytes.getD n 0).getLsbD (valueBit o 8 j) = (snkClose o k).written.getD (8 * n + j) false

/-- R25, R36: bytes unpacked to bits and packed again are the same bytes, and whole bytes of bits packed and unpacked the same bits. -/
def Obligations.PackAndUnpackAreInverse : Prop :=
  ∀ (o : BitOrder), (∀ bytes, packBytes o (unpackBytes o bytes) = bytes) ∧
    ∀ bits : List Bit, bits.length % 8 = 0 → unpackBytes o (packBytes o bits) = bits

/-! ### Encoding -/

/-- R49 to R54: decoding the input item of a well-formed operation gives it back, with the bits after the item untouched; an end of
input is an item only where no bit follows (R52). -/
def Obligations.DecodeInvertsEncode : Prop :=
  ∀ (o : BitOrder) (i : Instr) (rest : List Bit), i.wf = true → (i.width = 0 → rest = []) →
    decode o i.block (encode o i ++ rest) = .ok (i, rest)

/-- R53, R54: what the decoder accepts is a well-formed operation of the block, and the bits it read are that operation's item. -/
def Obligations.DecodeReadsExactlyTheItem : Prop :=
  ∀ (o : BitOrder) (blk : Block) (bits rest : List Bit) (i : Instr), decode o blk bits = .ok (i, rest) →
    i.wf = true ∧ i.block = blk ∧ bits = encode o i ++ rest ∧ (encode o i).length = i.width

/-- R39, R55: there is no illegal item; only a partial record, 1 to 7 bits left for DEC, gives no operation. -/
def Obligations.OnlyPartialRecordsAreRejected : Prop :=
  ∀ (o : BitOrder) (blk : Block) (bits : List Bit),
    decode o blk bits = .error .partialRecord ↔ blk = .dec ∧ 0 < bits.length ∧ bits.length < 8

/-- R49, R50, R54: a few items written out from the formats, first stream bit first. -/
def Obligations.KnownItemsDecode : Prop :=
  decode .msbFirst .enc [true, false] = .ok (.eBit true, [false]) ∧
  decode .msbFirst .enc [] = .ok (.eEnd, []) ∧
  decode .msbFirst .dec [true, true, true, true, true, true, true, true] = .ok (.dCont, []) ∧
  decode .msbFirst .dec [false, false, false, false, true, false, true, false] = .ok (.dRun 10, []) ∧
  decode .lsbFirst .dec [false, true, false, true, false, false, false, false] = .ok (.dRun 10, []) ∧
  decode .msbFirst .dec [true, true, true, true, true, true, true, false, true] = .ok (.dRun 254, [true]) ∧
  decode .msbFirst .dec [] = .ok (.dEnd, [])

/-! ### Step selection -/

/-- R60, R68: in its turn, an ACTIVE block whose source answers and whose sink accepts runs the operation its decoder reads from the
bits left in its source, and the item is consumed; at the end of the input DEC does so only outside a chain. -/
def Obligations.StepRunsTheDecodedOperation : Prop :=
  ∀ (s : State) (i : Instr) (rest : List Bit), nextTurn s = .block → s.isActive = true → s.src.stalled = false →
    s.snk.stalled = false → decode s.bitOrder s.running (remaining s.src) = .ok (i, rest) →
    (i = .dEnd → s.dec.chain = false) →
    step s = exec i (popTurn s) ∧ ∃ t, exec i (popTurn s) = .next t ∧ remaining t.src = rest

/-- R53: the operation map, row by row, for a block whose source answers and whose sink accepts.
The spec marks the completeness of the map as derived. -/
def Obligations.OperationMapSelectsEachRow : Prop :=
  ∀ (s : State) (c : Record), nextTurn s = .block → s.snk.stalled = false →
    c = recordOfBits s.bitOrder ((remaining s.decSrc).take 8) →
    (EncReady s → remaining s.encSrc ≠ [] → ∃ b, step s = exec (.eBit b) (popTurn s) ∧
      s.encSrc.bits[s.encSrc.pos]? = some b) ∧
    (EncReady s → remaining s.encSrc = [] → step s = exec .eEnd (popTurn s)) ∧
    (DecReady s → 8 ≤ (remaining s.decSrc).length → c = 255#8 → step s = exec .dCont (popTurn s)) ∧
    (DecReady s → 8 ≤ (remaining s.decSrc).length → c ≠ 255#8 → step s = exec (.dRun c) (popTurn s)) ∧
    (DecReady s → remaining s.decSrc = [] → s.dec.chain = false → step s = exec .dEnd (popTurn s)) ∧
    (DecReady s → remaining s.decSrc = [] → s.dec.chain = true →
      step s = .next (raiseFault .srcExhausted s.decSrc.pos (popTurn s))) ∧
    (DecReady s → 0 < (remaining s.decSrc).length → (remaining s.decSrc).length < 8 →
      step s = .next (raiseFault .srcShort s.decSrc.pos (popTurn s)))

/-- R53, R55, R82: the map is complete: in its turn an ACTIVE block always has a next state, whatever its input, its registers and its
sink.
The spec marks the completeness of the map as derived; the hold of a stalled sink is the model's reading (log 6). -/
def Obligations.ActiveBlockNeverStops : Prop :=
  ∀ s : State, nextTurn s = .block → s.isActive = true → ∃ t, step s = .next t

/-- R18, R21: in DONE or FAULT the block takes no step; the model's step stops under a name that says so (log 8). -/
def Obligations.EndedBlockTakesNoStep : Prop :=
  ∀ s : State, nextTurn s = .block →
    (s.running = .enc → s.enc.phase = .done → step s = .fault .encDone) ∧
    (s.running = .dec → s.dec.phase = .done → step s = .fault .decDone) ∧
    (s.running = .dec → s.dec.phase = .fault → step s = .fault .decFault)

/-- R86: an ACTIVE block holds, with no state changed but the turn taken, while its source cannot answer, and while its sink cannot
accept what the operation it decodes would write.
What a stalled sink holds is the model's reading (log 6). -/
def Obligations.HoldChangesNothing : Prop :=
  ∀ s : State, nextTurn s = .block → s.isActive = true →
    (s.src.stalled = true → step s = .next (popTurn s)) ∧
    (s.src.stalled = false → s.snk.stalled = true → ∀ i rest,
      decode s.bitOrder s.running (remaining s.src) = .ok (i, rest) → (i = .dEnd → s.dec.chain = false) →
      writesSink i s = true → step s = .next (popTurn s))

/-- R53, log 9: an operation has an effect only where the state selects it. Where it selects another one, or a fault, the operation is
refused; while the block holds nothing changes, and after the end of the run there is no step. So a D.RUN of 255, which no state
selects (R70), never has an effect. That exec answers so is the model's choice (log 8, log 9). -/
def Obligations.UnselectedOperationHasNoEffect : Prop :=
  ∀ (s : State) (i : Instr),
    (∀ t, exec i s = .next t → (∃ s', select s = .run i s') ∨ t = s) ∧
    (∀ j s', select s = .run j s' → i ≠ j → exec i s = .refused .notSelected) ∧
    (∀ cause pos, select s = .raise cause pos → exec i s = .refused .notSelected) ∧
    (select s = .hold → exec i s = .next s) ∧
    (∀ why, select s = .ended why → exec i s = .fault why) ∧
    ∀ t, exec (.dRun 255#8) s = .next t → t = s

/-! ### Encoder operations -/

/-- R62: E.BIT consumes a bit; when it differs from `lastBit`, or `count` is 255, it writes the record `count` and starts a run of one
bit; otherwise it counts the bit, without overflow (R65, which the spec marks as derived). A bit that is only counted writes nothing,
so it completes whatever the sink accepts (R86; the model's reading, log 6). -/
def Obligations.EBitCompletes : Prop :=
  ∀ (s : State) (b : Bit) (rest : List Bit), EncReady s → remaining s.encSrc = b :: rest →
    if b ≠ s.enc.lastBit ∨ (s.enc.count = 255#8 ∧ b = s.enc.lastBit) then
      s.encSnk.stalled = false →
      exec (.eBit b) s = .next { s with
        encSrc := { s.encSrc with pos := s.encSrc.pos + 1 }
        enc := { s.enc with lastBit := b, count := 1#8 }
        encSnk := { s.encSnk with written := s.encSnk.written ++ bitsOfUint s.bitOrder s.enc.count.toNat 8 } }
    else
      exec (.eBit b) s = .next { s with
        encSrc := { s.encSrc with pos := s.encSrc.pos + 1 }
        enc := { s.enc with count := s.enc.count + 1#8 } } ∧
      (s.enc.count + 1#8).toNat = s.enc.count.toNat + 1

/-- R63: E.END writes the pending count if there is one, closes the sink and ends; `count` and `lastBit` keep their values. -/
def Obligations.EEndCompletes : Prop :=
  ∀ s : State, EncReady s → remaining s.encSrc = [] → s.encSnk.stalled = false →
    exec .eEnd s = .next { s with
      enc := { s.enc with phase := .done }
      encSnk := snkClose s.bitOrder { s.encSnk with
        written := s.encSnk.written ++ if 0 < s.enc.count.toNat then bitsOfUint s.bitOrder s.enc.count.toNat 8 else [] } }

/-- What E.BIT and E.END leave unchanged when they answer a next state: all of DEC, the parameter, the schedule, the input; E.BIT the
phase and the sink but for bits appended, and the whole sink when it does not emit; E.END the registers but for the phase. -/
def Obligations.EncoderOperationFrame : Prop :=
  ∀ (s t : State) (b : Bit),
    (exec (.eBit b) s = .next t →
      t.running = s.running ∧ t.bitOrder = s.bitOrder ∧ t.schedule = s.schedule ∧
      t.dec = s.dec ∧ t.decSrc = s.decSrc ∧ t.decSnk = s.decSnk ∧
      t.encSrc.bits = s.encSrc.bits ∧ t.encSrc.stalled = s.encSrc.stalled ∧ t.encSrc.ending = s.encSrc.ending ∧
      t.enc.phase = s.enc.phase ∧
      t.encSnk.closed = s.encSnk.closed ∧ t.encSnk.delivered = s.encSnk.delivered ∧
      t.encSnk.stalled = s.encSnk.stalled ∧ s.encSnk.written <+: t.encSnk.written ∧
      (b = s.enc.lastBit → s.enc.count ≠ 255#8 → t.encSnk = s.encSnk ∧ t.enc.lastBit = s.enc.lastBit)) ∧
    (exec .eEnd s = .next t →
      t.running = s.running ∧ t.bitOrder = s.bitOrder ∧ t.schedule = s.schedule ∧
      t.dec = s.dec ∧ t.decSrc = s.decSrc ∧ t.decSnk = s.decSnk ∧ t.encSrc = s.encSrc ∧
      t.enc.lastBit = s.enc.lastBit ∧ t.enc.count = s.enc.count ∧
      t.encSnk.stalled = s.encSnk.stalled ∧ s.encSnk.written <+: t.encSnk.written)

/-! ### Decoder operations -/

/-- R69: D.CONT consumes a record 255, writes 255 copies of `bit` and sets `chain`; `bit` is not written. The read that follows is
required: where the source is exhausted, the next step faults with SRC_EXHAUSTED. -/
def Obligations.DContCompletes : Prop :=
  ∀ s : State, DecReady s → 8 ≤ (remaining s.decSrc).length →
    recordOfBits s.bitOrder ((remaining s.decSrc).take 8) = 255#8 → s.decSnk.stalled = false →
    ∃ t, exec .dCont s = .next t ∧
      t = { s with
        decSrc := { s.decSrc with pos := s.decSrc.pos + 8 }
        dec := { s.dec with chain := true }
        decSnk := { s.decSnk with written := s.decSnk.written ++ List.replicate 255 s.dec.bit } } ∧
      (nextTurn t = .block → (remaining s.decSrc).length = 8 →
        step t = .next (raiseFault .srcExhausted (s.decSrc.pos + 8) (popTurn t)))

/-- R70: D.RUN consumes a record c of 0 to 254, writes c copies of `bit`, flips `bit` and clears `chain`. With c = 0 it writes nothing,
so it completes whatever the sink accepts (R86; the model's reading, log 6). -/
def Obligations.DRunCompletes : Prop :=
  ∀ (s : State) (c : Record), DecReady s → 8 ≤ (remaining s.decSrc).length →
    recordOfBits s.bitOrder ((remaining s.decSrc).take 8) = c → c ≠ 255#8 →
    (c ≠ 0#8 → s.decSnk.stalled = false) →
    exec (.dRun c) s = .next { s with
      decSrc := { s.decSrc with pos := s.decSrc.pos + 8 }
      dec := { s.dec with bit := !s.dec.bit, chain := false }
      decSnk := { s.decSnk with written := s.decSnk.written ++ List.replicate c.toNat s.dec.bit } }

/-- R71: D.END closes the sink and ends. -/
def Obligations.DEndCompletes : Prop :=
  ∀ s : State, DecReady s → remaining s.decSrc = [] → s.dec.chain = false → s.decSnk.stalled = false →
    exec .dEnd s = .next { s with
      dec := { s.dec with phase := .done }
      decSnk := snkClose s.bitOrder s.decSnk }

/-- What D.CONT, D.RUN and D.END leave unchanged when they answer a next state. -/
def Obligations.DecoderOperationFrame : Prop :=
  ∀ (s t : State) (c : Record),
    (exec .dCont s = .next t ∨ exec (.dRun c) s = .next t ∨ exec .dEnd s = .next t →
      t.running = s.running ∧ t.bitOrder = s.bitOrder ∧ t.schedule = s.schedule ∧
      t.enc = s.enc ∧ t.encSrc = s.encSrc ∧ t.encSnk = s.encSnk ∧
      t.decSrc.bits = s.decSrc.bits ∧ t.decSrc.stalled = s.decSrc.stalled ∧ t.decSrc.ending = s.decSrc.ending ∧
      t.dec.cause = s.dec.cause ∧ t.dec.faultPos = s.dec.faultPos ∧
      t.decSnk.stalled = s.decSnk.stalled ∧ s.decSnk.written <+: t.decSnk.written) ∧
    (exec .dCont s = .next t ∨ exec (.dRun c) s = .next t →
      t.dec.phase = s.dec.phase ∧ t.decSnk.closed = s.decSnk.closed ∧ t.decSnk.delivered = s.decSnk.delivered) ∧
    (exec .dCont s = .next t ∨ exec .dEnd s = .next t → t.dec.bit = s.dec.bit) ∧
    (exec (.dRun 0#8) s = .next t → t.decSnk = s.decSnk) ∧
    (exec .dEnd s = .next t → t.dec.chain = s.dec.chain ∧ t.decSrc = s.decSrc)

/-! ### Faults -/

/-- R80: raising a fault sets the phase, the cause and the position, and nothing else: no sink write, no close, `bit` and `chain` kept. -/
def Obligations.RaiseFaultWritesOnlyTheFault : Prop :=
  ∀ (s : State) (cause : Cause) (p : Nat),
    raiseFault cause p s =
      { s with dec := { bit := s.dec.bit, chain := s.dec.chain, phase := .fault, cause := cause, faultPos := p } }

/-- R81: a block's turn takes the machine into phase FAULT exactly when DEC, ACTIVE with a source that answers, has no bit left in
a chain (SRC_EXHAUSTED) or has 1 to 7 bits left (SRC_SHORT); cause and position are then recorded (R68, R79, R80). No turn of the
host does. That DEC holds while its source cannot answer, and that it faults while only its sink cannot accept, is the model's
reading of R86 (log 6). -/
def Obligations.FaultsAreExactlyUnsatisfiedReads : Prop :=
  (∀ s t : State, nextTurn s = .block → step s = .next t → s.dec.phase ≠ .fault →
    (t.dec.phase = .fault ↔ DecReady s ∧ (remaining s.decSrc).length < 8 ∧
        (remaining s.decSrc = [] → s.dec.chain = true)) ∧
      (t.dec.phase = .fault → remaining s.decSrc = [] → t.dec.cause = .srcExhausted) ∧
      (t.dec.phase = .fault → remaining s.decSrc ≠ [] → t.dec.cause = .srcShort) ∧
      (t.dec.phase = .fault → t.dec.faultPos = s.decSrc.pos)) ∧
  ∀ (s t : State) (m : HostMove), nextTurn s = .host m → step s = .next t → t.dec.phase = .fault → s.dec.phase = .fault

/-- R82: ENC raises no exception: in its turn an ACTIVE ENC always has a next state, and no fault register changes. -/
def Obligations.EncoderNeverFaults : Prop :=
  ∀ s : State, nextTurn s = .block → s.running = .enc → s.enc.phase = .active →
    ∃ t, step s = .next t ∧ t.dec = s.dec ∧ ∀ cause pos, select s ≠ .raise cause pos

/-- R84: FAULT is sticky: whatever step the machine takes, DEC's fault stays until a reset of DEC.
The launch is the model's form of the reset (log 3). -/
def Obligations.FaultIsStickyUntilReset : Prop :=
  ∀ s t : State, s.dec.phase = .fault → step s = .next t →
    t.dec = s.dec ∨ ∃ input, t = launch .dec input (popTurn s)

/-! ### The host -/

/-- R86, R91: the host's delays and answers change only the readiness of the running block's source or sink; but the sink's acceptance
also lets an end of the source that waited for it take effect (log 7). The readiness flags are the model's (log 6). -/
def Obligations.HostDelaysChangeOnlyReadiness : Prop :=
  ∀ s : State,
    (nextTurn s = .host .stallSource → step s = .next ((popTurn s).setSrc { s.src with stalled := true })) ∧
    (nextTurn s = .host .answerSource → step s = .next ((popTurn s).setSrc { s.src with stalled := false })) ∧
    (nextTurn s = .host .stallSink → step s = .next ((popTurn s).setSnk { s.snk with stalled := true })) ∧
    (nextTurn s = .host .acceptSink → s.isActive = false ∨ s.src.ending = false →
      step s = .next ((popTurn s).setSnk { s.snk with stalled := false })) ∧
    (nextTurn s = .host .acceptSink → s.isActive = true → s.src.ending = true →
      step s = .next (((popTurn s).setSnk { s.snk with stalled := false }).setSrc (endOfSource s.src)))

/-- R87, R91: when the host ends the source of an ACTIVE block out of band, the block sees an empty source at its next step: ENC runs
E.END, DEC runs D.END or, in a chain, faults with SRC_EXHAUSTED. Where source and sink are ready that is the step that follows. Where
one of them is not, it follows once the host has done its duty, to answer and to accept: until then a block that held still holds.
How the source is emptied, and that an end waits for a sink that the block waits for, is the model's reading (log 7). -/
def Obligations.OutOfBandEndIsSeenAtTheNextStep : Prop :=
  ∀ s : State, s.schedule = [.host .endSource] → s.isActive = true →
    ∃ t v, step s = .next t ∧
      runSteps 2 { t with schedule := [.host .answerSource, .host .acceptSink] } = .next v ∧ srcIsEmpty v.src = true ∧
      (s.src.stalled = false → s.snk.stalled = false → v = t) ∧
      (step (popTurn s) = .next (popTurn s) → step t = .next t) ∧
      (s.running = .enc → step v = exec .eEnd v ∧ ∃ u, step v = .next u ∧ u.enc.phase = .done) ∧
      (s.running = .dec → s.dec.chain = false → step v = exec .dEnd v ∧ ∃ u, step v = .next u ∧ u.dec.phase = .done) ∧
      (s.running = .dec → s.dec.chain = true → ∃ u, step v = .next u ∧ u.dec.phase = .fault ∧ u.dec.cause = .srcExhausted)

/-- R91: a liberty of the host never lets a waiting block move. An ACTIVE block whose turn changes nothing holds, and after the host
delays its source, delays its sink or ends its source, its turn still changes nothing; and a block that waits for its sink waits on
after its source is ended and answers. That such an end waits for the sink is the model's reading (log 7). -/
def Obligations.LibertiesNeverMoveAWaitingBlock : Prop :=
  ∀ s : State, s.schedule = [] → s.isActive = true → step s = .next s →
    (∀ m, m = .stallSource ∨ m = .stallSink ∨ m = .endSource →
      ∃ t, step { s with schedule := [.host m] } = .next t ∧ step t = .next t) ∧
    (s.src.stalled = false →
      ∃ t, runSteps 2 { s with schedule := [.host .endSource, .host .answerSource] } = .next t ∧ step t = .next t)

/-- R90, R96, R99: a pipeline runs DEC on the bytes ENC delivered, and is refused before ENC has delivered (log 17) and during a run,
which is an ACTIVE block with some input consumed (log 12). -/
def Obligations.PipelineNeedsDeliveredOutput : Prop :=
  ∀ s : State, nextTurn s = .host .pipeline →
    (s.encSnk.delivered = none → step s = .refused .outputNotDelivered) ∧
    (∀ bytes, s.encSnk.delivered = some bytes →
      if s.isActive = true ∧ 0 < s.src.pos then step s = .refused .resetDuringRun
      else step s = .next (launch .dec (unpackBytes s.bitOrder bytes) (popTurn s)))

/-- R91: after FAULT the host may discard the sink: what was written is gone, and nothing else of the machine changes, the
observation of the fault included (R89). What a discarded sink holds, and the refusal where DEC is not in FAULT, are the model's
(log 22). -/
def Obligations.DiscardedSinkLeavesTheFault : Prop :=
  ∀ s : State, nextTurn s = .host .discardSink →
    (s.dec.phase = .fault → ∃ t, step s = .next t ∧ t = { popTurn s with decSnk := t.decSnk } ∧
      t.decSnk.written = [] ∧ t.decSnk.delivered = none ∧ t.decSnk.closed = false ∧
      t.decSnk.stalled = s.decSnk.stalled ∧ (s.running = .dec → observe t = observe s)) ∧
    (s.dec.phase ≠ .fault → step s = .refused .hostBreach)

/-! ### The two blocks and their streams -/

/-- R4, R15: ENC and DEC share no mutable state: the running block's turn leaves the other block, its source and its sink as they are,
and goes the same way whatever they hold.
That both blocks stand in one State, one of them running, is the model's (log 1). -/
def Obligations.BlocksShareNoState : Prop :=
  ∀ s t : State, nextTurn s = .block → step s = .next t →
    (s.running = .enc → t.dec = s.dec ∧ t.decSrc = s.decSrc ∧ t.decSnk = s.decSnk ∧
      ∀ r x k, step { s with dec := r, decSrc := x, decSnk := k } = .next { t with dec := r, decSrc := x, decSnk := k }) ∧
    (s.running = .dec → t.enc = s.enc ∧ t.encSrc = s.encSrc ∧ t.encSnk = s.encSnk ∧
      ∀ r x k, step { s with enc := r, encSrc := x, encSnk := k } = .next { t with enc := r, encSrc := x, encSnk := k })

/-- R27, R43, R47: a block's turn never changes the input, never moves the cursor back, and only appends to the sink. -/
def Obligations.StreamsAreReadAndWrittenInOrder : Prop :=
  ∀ s t : State, nextTurn s = .block → step s = .next t →
    t.encSrc.bits = s.encSrc.bits ∧ t.decSrc.bits = s.decSrc.bits ∧
    s.encSrc.pos ≤ t.encSrc.pos ∧ s.decSrc.pos ≤ t.decSrc.pos ∧
    s.encSnk.written <+: t.encSnk.written ∧ s.decSnk.written <+: t.decSnk.written

/-- R9, R37: no step of any agent changes BIT_ORDER. -/
def Obligations.BitOrderNeverChanges : Prop :=
  ∀ s t : State, step s = .next t → t.bitOrder = s.bitOrder

/-! ### Invariants -/

/-- Every step, of a block or of the host, keeps the invariant of streams, sinks and control registers (R20 to R22, R25, R35, R36, R38,
R66, R79, R98, R99).
What it says of `delivered` is the model's (log 11). -/
def Obligations.StepKeepsTheMachineInvariant : Prop :=
  ∀ s t : State, Inv s → step s = .next t → Inv t

/-- The invariant holds at reset. -/
def Obligations.MachineInvariantHoldsAtReset : Prop := Inv State.reset

/-- R64 (a): every step keeps `count = 0` exactly as long as ENC has consumed nothing, and `lastBit` is then its reset value.
The spec marks R64 as derived. -/
def Obligations.StepKeepsTheCountInvariant : Prop :=
  ∀ s t : State, CountOk s → step s = .next t → CountOk t

/-- R64 (a): after every E.BIT, `1 <= count <= 255`, from any state; and before the first, `count = 0`.
The spec marks R64 as derived. -/
def Obligations.CountIsPositiveAfterEveryBit : Prop :=
  CountOk State.reset ∧
  ∀ (s t : State) (b : Bit), exec (.eBit b) s = .next t → t ≠ s → 1 ≤ t.enc.count.toNat ∧ t.enc.count.toNat ≤ 255

/-- R16, R17, R64 (b): every step keeps ENC's output, with its pending count, equal to the records of the input consumed so far.
The spec marks R64 as derived. -/
def Obligations.StepKeepsEncoderTracking : Prop :=
  ∀ s t : State, EncTracks s → step s = .next t → EncTracks t

/-- R19, R20, R38, R74: every step keeps DEC's output, `bit` and `chain` equal to what the records consumed so far give.
The spec marks R74 as derived. -/
def Obligations.StepKeepsDecoderTracking : Prop :=
  ∀ s t : State, DecTracks s → step s = .next t → DecTracks t

/-- ENC's tracking invariant holds after any launch of ENC and DEC's after any launch of DEC, from any state; both hold after a launch of
either block from a state in which both hold, and at reset. -/
def Obligations.TrackingHoldsAtResetAndLaunch : Prop :=
  (EncTracks State.reset ∧ DecTracks State.reset) ∧
  ∀ (s : State) (input : List Bit), EncTracks (launch .enc input s) ∧ DecTracks (launch .dec input s) ∧
    ∀ blk, EncTracks s → DecTracks s → EncTracks (launch blk input s) ∧ DecTracks (launch blk input s)

/-! ### Whole runs -/

/-- R64 (b), R67: ENC on any input takes `len(S) + 1` steps to DONE, closing its sink in the last, and delivers the closed form.
The spec marks both as derived. -/
def Obligations.EncoderRunDeliversTheClosedForm : Prop :=
  ∀ (s : State) (input : List Bit), s.schedule = [] →
    (∀ k ≤ input.length, ∃ u, runSteps k (launch .enc input s) = .next u ∧ u.enc.phase = .active ∧
      u.encSrc.pos = k ∧ u.encSnk.closed = false) ∧
    ∃ t, runSteps (input.length + 1) (launch .enc input s) = .next t ∧ t.enc.phase = .done ∧ t.encSnk.closed = true ∧
      t.encSnk.written = unpackBytes s.bitOrder (encRecords input) ∧ observe t = some (.delivered (encRecords input))

/-- R66: ENC writes a record 0 only as the first record, and exactly when the first input bit is 1; its output is whole records, so the
close pads nothing: the closed `W` is the `W` before E.END and the pending record alone; no input is rejected. The spec marks R66 as
derived. -/
def Obligations.EncoderWritesZeroOnlyFirst : Prop :=
  ∀ (s : State) (input : List Bit), s.schedule = [] →
    ∃ (u t : State) (records : List Record), runSteps input.length (launch .enc input s) = .next u ∧
      runSteps (input.length + 1) (launch .enc input s) = .next t ∧ t.enc.phase = .done ∧
      t.encSnk.written = u.encSnk.written ++
        (if 0 < u.enc.count.toNat then bitsOfUint s.bitOrder u.enc.count.toNat 8 else []) ∧
      u.encSnk.written.length % 8 = 0 ∧
      t.encSnk.delivered = some records ∧ t.encSnk.written = unpackBytes s.bitOrder records ∧
      t.encSnk.written.length = 8 * records.length ∧
      ∀ (i : Nat) (c : Record), records[i]? = some c → (c = 0#8 ↔ i = 0 ∧ input.head? = some true)

/-- R61, R62, R63, R65: the literal algorithm, with an unbounded count and the loop of EmitRun kept, leaves the same sink.
The spec marks it as derived; the model's 8-bit count is log 14. -/
def Obligations.LiteralEncoderGivesTheSameOutput : Prop :=
  ∀ (s : State) (input : List Bit), s.schedule = [] →
    ∃ t, runSteps (input.length + 1) (launch .enc input s) = .next t ∧
      t.encSnk = literalEncoder s.bitOrder input false 0 Sink.attached

/-- R73, R78: DEC on any source takes one step per whole record and one more; it ends DONE on a well-formed stream, FAULT with
SRC_SHORT on a partial record, FAULT with SRC_EXHAUSTED after a trailing 255, with `fault_pos = 8*K`; records 0 to K-1 are executed.
The spec marks both as derived. -/
def Obligations.DecoderAcceptsExactlyWellFormedStreams : Prop :=
  ∀ (s : State) (input : List Bit), s.schedule = [] →
    (∃ u, runSteps (input.length / 8) (launch .dec input s) = .next u ∧ u.dec.phase = .active ∧
      u.decSrc.pos = 8 * (input.length / 8) ∧ u.decSnk.written = decodedBits (packBytes s.bitOrder input)) ∧
    ∃ t, runSteps (input.length / 8 + 1) (launch .dec input s) = .next t ∧
      (input.length % 8 = 0 → (packBytes s.bitOrder input).getLast? ≠ some 255#8 → t.dec.phase = .done) ∧
      (input.length % 8 ≠ 0 → observe t = some (.failed .srcShort (8 * (input.length / 8)))) ∧
      (input.length % 8 = 0 → (packBytes s.bitOrder input).getLast? = some 255#8 →
        observe t = some (.failed .srcExhausted (8 * (input.length / 8))))

/-- R74: on a well-formed stream DEC delivers, padded, ci copies of `f(i) mod 2` for each record i in order; the length before padding
is the sum of the records, and the final `bit` is the number of non-255 records mod 2.
The spec marks R74 as derived. -/
def Obligations.DecoderRunOutput : Prop :=
  ∀ (s : State) (records : List Record), s.schedule = [] → records.getLast? ≠ some 255#8 →
    ∃ t, runSteps (records.length + 1) (launch .dec (unpackBytes s.bitOrder records) s) = .next t ∧
      t.dec.phase = .done ∧ t.dec.bit = impliedBit records ∧
      t.decSnk.written = padded (decodedBits records) ∧
      (decodedBits records).length = (records.map BitVec.toNat).sum ∧
      observe t = some (.delivered (packBytes s.bitOrder (padded (decodedBits records))))

/-- R72: the step machine ends as the source's loop read literally does: with the same sink and `bit`, or the same failed read.
The spec marks R72 as derived. -/
def Obligations.LiteralDecoderGivesTheSameEnd : Prop :=
  ∀ (s : State) (input : List Bit), s.schedule = [] →
    ∃ n t, n ≤ input.length + 1 ∧ runSteps n (launch .dec input s) = .next t ∧
      match literalDecoder s.bitOrder (input.length + 1) false (Source.attached input) Sink.attached with
      | .ok (bit, k) => t.dec.phase = .done ∧ t.dec.bit = bit ∧ t.decSnk = k
      | .error (cause, pos) => t.dec.phase = .fault ∧ t.dec.cause = cause ∧ t.dec.faultPos = pos

/-- R89: an ACTIVE block that nothing disturbs ends, DONE or FAULT, with something to observe, after at most one step for each bit left
and one more.
The spec marks the bound as derived; the schedule is the model's (log 5). -/
def Obligations.UndisturbedRunEndsInTime : Prop :=
  ∀ s : State, Undisturbed s → s.isActive = true →
    ∃ n t, n ≤ s.src.bits.length - s.src.pos + 1 ∧ runSteps n s = .next t ∧ t.isActive = false ∧
      (observe t).isSome = true

/-! ### The round trip -/

/-- R75, 2 to 5: DEC on ENC's records for B faults with SRC_EXHAUSTED when the last run is defective, and otherwise ends DONE and
delivers, padded, run j as Lj copies of `vj XOR (dj mod 2)`.
The spec marks R75 as derived. -/
def Obligations.RoundTripOutcome : Prop :=
  ∀ (s : State) (input : List Bit), s.schedule = [] →
    ∃ t, runSteps ((encRecords input).length + 1) (launch .dec (unpackBytes s.bitOrder (encRecords input)) s) = .next t ∧
      if (runsOf input).getLast?.any (fun r => defective r.2) = true then
        observe t = some (.failed .srcExhausted (8 * (encRecords input).length))
      else observe t = some (.delivered (packBytes s.bitOrder (padded (roundTripBits (runsOf input)))))

/-- R75, 3 and 5: after one step for each of ENC's records of B, the bits DEC has written are as many as B's, and are B if and only if
no run of B but the last is defective. One step later DEC has delivered B, padded, if and only if no run of B is defective. The spec
marks R75 as derived. -/
def Obligations.RoundTripIsExactIffNoRunIsDefective : Prop :=
  ∀ (s : State) (input : List Bit), s.schedule = [] →
    ∃ t u, runSteps (encRecords input).length (launch .dec (unpackBytes s.bitOrder (encRecords input)) s) = .next t ∧
      t.decSnk.written.length = input.length ∧
      (t.decSnk.written = input ↔ ∀ r ∈ (runsOf input).dropLast, defective r.2 = false) ∧
      step t = .next u ∧
      (observe u = some (.delivered (packBytes s.bitOrder (padded input))) ↔ ∀ r ∈ runsOf input, defective r.2 = false)

/-- R75, R99, R102: ENC on B and then, in a pipeline, DEC on the delivered bytes gives B back, padded, when no run of B is defective.
The spec marks R75 as derived; the pipeline's form is log 17. -/
def Obligations.PipelineIsLosslessWithoutDefectiveRuns : Prop :=
  ∀ (s : State) (input : List Bit), (∀ r ∈ runsOf input, defective r.2 = false) →
    s.schedule = List.replicate (input.length + 1) .block ++ [.host .pipeline] →
    ∃ k t, runSteps k (launch .enc input s) = .next t ∧ t.running = .dec ∧
      observe t = some (.delivered (packBytes s.bitOrder (padded input)))

end
end

