-- ==== Sys2Proof/Laws/Bits.lean ====
section
/-! SUPPORT. The bit-list helpers of Decode.lean: lengths, values and the effect of BIT_ORDER. -/

namespace Sys2Proof

@[simp] theorem bitsOfNat_length (w v : Nat) : (bitsOfNat w v).length = w := by
  induction w generalizing v with
  | zero => rfl
  | succ w ih => simp [bitsOfNat, ih]

@[simp] theorem inOrder_length (o : BitOrder) (bits : List Bit) : (inOrder o bits).length = bits.length := by
  cases o <;> simp [inOrder]

@[simp] theorem inOrder_inOrder (o : BitOrder) (bits : List Bit) : inOrder o (inOrder o bits) = bits := by
  cases o <;> simp [inOrder]

@[simp] theorem bitsOfUint_length (o : BitOrder) (v w : Nat) : (bitsOfUint o v w).length = w := by
  simp [bitsOfUint]

@[simp] theorem bitsOfRecord_length (o : BitOrder) (c : Record) : (bitsOfRecord o c).length = 8 := by
  simp [bitsOfRecord]

theorem natOfBits_lt (bits : List Bit) : natOfBits bits < 2 ^ bits.length := by
  induction bits with
  | nil => simp [natOfBits]
  | cons b bs ih => cases b <;> simp [natOfBits, pow_succ] <;> omega

theorem natOfBits_bitsOfNat (w v : Nat) : natOfBits (bitsOfNat w v) = v % 2 ^ w := by
  induction w generalizing v with
  | zero => simp [bitsOfNat, natOfBits, Nat.mod_one]
  | succ w ih =>
    have hv : v % 2 ^ (w + 1) = v % 2 + 2 * (v / 2 % 2 ^ w) := by
      rw [pow_succ, mul_comm, Nat.mod_mul]
    rw [bitsOfNat, natOfBits, ih, hv, Nat.testBit_zero]
    rcases Nat.mod_two_eq_zero_or_one v with h | h <;> simp [h]

theorem bitsOfNat_natOfBits (bits : List Bit) : bitsOfNat bits.length (natOfBits bits) = bits := by
  induction bits with
  | nil => rfl
  | cons b bs ih =>
    have hdiv : (b.toNat + 2 * natOfBits bs) / 2 = natOfBits bs := by cases b <;> simp; omega
    have hbit : (b.toNat + 2 * natOfBits bs).testBit 0 = b := by
      cases b <;> simp [Nat.testBit_zero]
    rw [natOfBits, List.length_cons, bitsOfNat, hbit, hdiv, ih]

theorem uintOfBits_lt (o : BitOrder) (bits : List Bit) : uintOfBits o bits < 2 ^ bits.length := by
  simpa [uintOfBits] using natOfBits_lt (inOrder o bits)

/-- Reading what `SnkWriteUint` writes gives the value modulo `2^w`. -/
theorem uintOfBits_bitsOfUint (o : BitOrder) (v w : Nat) : uintOfBits o (bitsOfUint o v w) = v % 2 ^ w := by
  simp [uintOfBits, bitsOfUint, natOfBits_bitsOfNat]

/-- Writing the value of a list of bits writes that list. -/
theorem bitsOfUint_uintOfBits (o : BitOrder) (bits : List Bit) : bitsOfUint o (uintOfBits o bits) bits.length = bits := by
  have h := bitsOfNat_natOfBits (inOrder o bits)
  rw [inOrder_length] at h
  simp [uintOfBits, bitsOfUint, h]

theorem recordOfBits_bitsOfRecord (o : BitOrder) (c : Record) : recordOfBits o (bitsOfRecord o c) = c := by
  apply BitVec.eq_of_toNat_eq
  have := c.isLt
  simp [recordOfBits, bitsOfRecord, uintOfBits_bitsOfUint]

theorem bitsOfRecord_recordOfBits (o : BitOrder) (bits : List Bit) (h : bits.length = 8) :
    bitsOfRecord o (recordOfBits o bits) = bits := by
  have hlt := uintOfBits_lt o bits
  have hb := bitsOfUint_uintOfBits o bits
  rw [h] at hlt hb
  have hm : uintOfBits o bits % 256 = uintOfBits o bits := Nat.mod_eq_of_lt hlt
  simp only [recordOfBits, bitsOfRecord, BitVec.toNat_ofNat]
  rw [show uintOfBits o bits % 2 ^ recordWidth = uintOfBits o bits from hm]
  exact hb

/-- A list of 8 bits, taken apart. -/
theorem eight_bits {bits : List Bit} (h : bits.length = 8) :
    ∃ b0 b1 b2 b3 b4 b5 b6 b7, bits = [b0, b1, b2, b3, b4, b5, b6, b7] := by
  match bits, h with
  | [b0, b1, b2, b3, b4, b5, b6, b7], _ => exact ⟨b0, b1, b2, b3, b4, b5, b6, b7, rfl⟩

theorem packBytes_append_of_eight (o : BitOrder) (bits rest : List Bit) (h : bits.length = 8) :
    packBytes o (bits ++ rest) = recordOfBits o bits :: packBytes o rest := by
  obtain ⟨b0, b1, b2, b3, b4, b5, b6, b7, rfl⟩ := eight_bits h
  rfl

/-- One more record at the end of whole records. -/
theorem packBytes_snoc (o : BitOrder) (n : Nat) (bits item : List Bit) (h : bits.length = 8 * n) (hi : item.length = 8) :
    packBytes o (bits ++ item) = packBytes o bits ++ [recordOfBits o item] := by
  induction n generalizing bits with
  | zero =>
    have : bits = [] := by simpa using h
    subst this
    simpa [packBytes] using packBytes_append_of_eight o item [] hi
  | succ n ih =>
    have h8 : (bits.take 8).length = 8 := by simp; omega
    have hd : (bits.drop 8).length = 8 * n := by simp; omega
    rw [← List.take_append_drop 8 bits, List.append_assoc, packBytes_append_of_eight o _ _ h8, ih _ hd,
      packBytes_append_of_eight o _ _ h8, List.cons_append]

@[simp] theorem unpackBytes_nil (o : BitOrder) : unpackBytes o [] = [] := rfl

theorem unpackBytes_cons (o : BitOrder) (c : Byte) (cs : List Byte) :
    unpackBytes o (c :: cs) = bitsOfRecord o c ++ unpackBytes o cs := by
  simp [unpackBytes]

theorem unpackBytes_append (o : BitOrder) (xs ys : List Byte) :
    unpackBytes o (xs ++ ys) = unpackBytes o xs ++ unpackBytes o ys := by
  simp [unpackBytes]

@[simp] theorem unpackBytes_length (o : BitOrder) (bytes : List Byte) : (unpackBytes o bytes).length = 8 * bytes.length := by
  induction bytes with
  | nil => rfl
  | cons c cs ih => simp [unpackBytes_cons, ih]; omega

end Sys2Proof
end

