-- ==== Sys2Proof/Laws/PerInstr.lean ====
section
/-! SUPPORT. The statement made per instruction: the item the encoder gives an operation is as wide as the table says. -/

namespace Sys2Proof.Laws.EncodeWidth

/-- Under either bit order, an operation's input item has the width of its row (R40, R49, R50, R52; opcode_table.json). -/
def Statement (i : Instr) : Prop := ∀ o : BitOrder, (encode o i).length = i.width

theorem eBit (b : Bit) : Statement (.eBit b) := fun _ => rfl

theorem eEnd : Statement .eEnd := fun _ => rfl

theorem dCont : Statement .dCont := fun o => bitsOfRecord_length o contValue

theorem dRun (c : Record) : Statement (.dRun c) := fun o => bitsOfRecord_length o c

theorem dEnd : Statement .dEnd := fun _ => rfl

end Sys2Proof.Laws.EncodeWidth
end

