-- ==== Sys2Proof/Laws/Runs.lean ====
section
/-! SUPPORT. The closed forms of Safety.lean: that `runsOf` gives the maximal runs of a bit sequence, and how runs, records and the
decoder's output grow by one item at the end of the input. -/

namespace Sys2Proof.Safety

/-! ### Runs -/

/-- The bits of a list of runs. -/
def bitsOfRuns (runs : List (Bit × Nat)) : List Bit := runs.flatMap fun r => List.replicate r.2 r.1

/-- `runsOf` loses nothing. -/
theorem bitsOfRuns_runsOf (bits : List Bit) : bitsOfRuns (runsOf bits) = bits := by
  induction bits with
  | nil => rfl
  | cons b bs ih =>
    unfold runsOf
    split
    · rename_i h
      rw [h] at ih
      simpa [bitsOfRuns] using ih
    · rename_i v n rest h
      rw [h] at ih
      split
      · rename_i hb
        subst hb
        simpa [bitsOfRuns, List.replicate_succ] using ih
      · simpa [bitsOfRuns] using ih

/-- Every run has at least one bit. -/
theorem runsOf_pos (bits : List Bit) : ∀ r ∈ runsOf bits, 1 ≤ r.2 := by
  induction bits with
  | nil => simp [runsOf]
  | cons b bs ih =>
    unfold runsOf
    split
    · simp
    · rename_i v n rest h
      rw [h] at ih
      split
      · intro r hr
        rcases List.mem_cons.1 hr with rfl | hr
        · simp
        · exact ih r (List.mem_cons_of_mem _ hr)
      · intro r hr
        rcases List.mem_cons.1 hr with rfl | hr
        · simp
        · exact ih r hr

/-- Neighbouring runs have different values: the runs are maximal. -/
theorem runsOf_alternate (bits : List Bit) : (runsOf bits).IsChain (fun r r' => r.1 ≠ r'.1) := by
  induction bits with
  | nil => simp [runsOf]
  | cons b bs ih =>
    unfold runsOf
    split
    · simp
    · rename_i v n rest h
      rw [h] at ih
      split
      · rename_i hb
        subst hb
        cases rest with
        | nil => simp
        | cons r rs =>
          rw [List.isChain_cons_cons] at ih ⊢
          exact ih
      · rename_i hb
        rw [List.isChain_cons_cons]
        exact ⟨hb, ih⟩

/-- One more bit at the end of a list of runs. -/
def extendRuns (b : Bit) : List (Bit × Nat) → List (Bit × Nat)
  | [] => [(b, 1)]
  | [(v, n)] => if b = v then [(v, n + 1)] else [(v, n), (b, 1)]
  | r :: r' :: rest => r :: extendRuns b (r' :: rest)

theorem extendRuns_ne_nil (b : Bit) (runs : List (Bit × Nat)) : extendRuns b runs ≠ [] := by
  match runs with
  | [] => simp [extendRuns]
  | [(v, n)] => unfold extendRuns; split <;> simp
  | r :: r' :: rest => simp [extendRuns]

theorem extendRuns_append_last (b v : Bit) (n : Nat) (runs : List (Bit × Nat)) :
    extendRuns b (runs ++ [(v, n)]) = runs ++ if b = v then [(v, n + 1)] else [(v, n), (b, 1)] := by
  match runs with
  | [] => rfl
  | [r] => rfl
  | r :: r' :: rest =>
    have := extendRuns_append_last b v n (r' :: rest)
    simp only [List.cons_append] at this ⊢
    simp only [extendRuns, this]

theorem runsOf_snoc (bits : List Bit) (b : Bit) : runsOf (bits ++ [b]) = extendRuns b (runsOf bits) := by
  induction bits with
  | nil => rfl
  | cons a bs ih =>
    simp only [List.cons_append]
    rw [runsOf, ih]
    rw [runsOf]
    match hr : runsOf bs with
    | [] =>
      by_cases hab : a = b
      · subst hab; simp [extendRuns]
      · simp [extendRuns, hab, Ne.symm hab]
    | [(v, n)] =>
      by_cases hbv : b = v
      · by_cases hav : a = v <;> simp [extendRuns, hbv, hav]
      · by_cases hav : a = v <;> simp [extendRuns, hbv, hav]
    | (v, n) :: r' :: rest =>
      by_cases hav : a = v <;> simp [extendRuns, hav]

/-- A nonempty sequence has a last run, of the last bit. -/
theorem runsOf_eq_append_last {bits : List Bit} {v : Bit} (h : bits.getLast? = some v) :
    ∃ runs n, runsOf bits = runs ++ [(v, n)] ∧ 1 ≤ n := by
  have hne : runsOf bits ≠ [] := by
    intro hn
    have := bitsOfRuns_runsOf bits
    rw [hn] at this
    rw [← this] at h
    simp [bitsOfRuns] at h
  obtain ⟨⟨w, n⟩, hlast⟩ : ∃ r, (runsOf bits).getLast? = some r := by
    cases hg : (runsOf bits).getLast? with
    | none => exact absurd (List.getLast?_eq_none_iff.1 hg) hne
    | some r => exact ⟨r, rfl⟩
  obtain ⟨runs, hruns⟩ := List.getLast?_eq_some_iff.1 hlast
  have hn : 1 ≤ n := runsOf_pos bits (w, n) (by rw [hruns]; simp)
  refine ⟨runs, n, ?_, hn⟩
  have hb := bitsOfRuns_runsOf bits
  rw [hruns] at hb
  have : bits.getLast? = some w := by
    rw [← hb]
    obtain ⟨m, rfl⟩ : ∃ m, n = m + 1 := ⟨n - 1, by omega⟩
    simp [bitsOfRuns, List.replicate_succ']
  rw [h] at this
  cases this
  exact hruns

/-! ### Records -/

/-- The records of a run of one bit more: a new record after a full one, else the last record is one more. -/
theorem encRun_succ (n : Nat) (h : 1 ≤ n) :
    encRun (n + 1) =
      if n % 255 = 0 then encRun n ++ [1#8]
      else List.replicate ((n - 1) / 255) 255#8 ++ [BitVec.ofNat 8 (n - 255 * ((n - 1) / 255) + 1)] := by
  unfold encRun
  split
  · rename_i hd
    have h1 : (n + 1 - 1) / 255 = (n - 1) / 255 + 1 := by omega
    have h2 : n - 255 * ((n - 1) / 255) = 255 := by omega
    have h3 : n + 1 - 255 * ((n - 1) / 255 + 1) = 1 := by omega
    rw [h1, h2, h3, List.replicate_succ']
  · rename_i hd
    have h1 : (n + 1 - 1) / 255 = (n - 1) / 255 := by omega
    have h2 : n + 1 - 255 * ((n - 1) / 255) = n - 255 * ((n - 1) / 255) + 1 := by omega
    rw [h1, h2]

theorem leadingRecord_append (runs rest : List (Bit × Nat)) (h : runs ≠ []) :
    leadingRecord (runs ++ rest) = leadingRecord runs := by
  match runs, h with
  | (true, _) :: _, _ => rfl
  | (false, _) :: _, _ => rfl

theorem leadingRecord_last (runs : List (Bit × Nat)) (v : Bit) (n m : Nat) :
    leadingRecord (runs ++ [(v, n)]) = leadingRecord (runs ++ [(v, m)]) := by
  cases runs with
  | nil => cases v <;> rfl
  | cons r rs => rw [leadingRecord_append _ _ (by simp), leadingRecord_append _ _ (by simp)]

/-- The records of a nonempty input, the last one apart: what is before its last run, the full records of that run, and its last
record, which is in 1..255. -/
theorem encRecords_last {bits : List Bit} {v : Bit} (h : bits.getLast? = some v) :
    ∃ before n, 1 ≤ n ∧
      encRecords bits =
        before ++ List.replicate ((n - 1) / 255) 255#8 ++ [BitVec.ofNat 8 (n - 255 * ((n - 1) / 255))] ∧
      ∀ b, encRecords (bits ++ [b]) =
        if b = v then before ++ encRun (n + 1) else before ++ encRun n ++ [1#8] := by
  obtain ⟨runs, n, hruns, hn⟩ := runsOf_eq_append_last h
  refine ⟨leadingRecord (runs ++ [(v, n)]) ++ runs.flatMap fun r => encRun r.2, n, hn, ?_, ?_⟩
  · simp [encRecords, hruns, encRun]
  · intro b
    rw [encRecords, runsOf_snoc, hruns, extendRuns_append_last]
    split
    · rename_i hb
      rw [leadingRecord_last runs v (n + 1) n]
      simp
    · have happ : runs ++ [(v, n), (b, 1)] = (runs ++ [(v, n)]) ++ [(b, 1)] := by simp
      have h1 : encRun 1 = [1#8] := by decide
      rw [happ, leadingRecord_append _ _ (by simp)]
      simp [h1]

/-- ENC's records for one more bit (R62): a new record 1 when the bit differs or the last record is full, else the last record is one
more. -/
theorem encRecords_snoc {bits : List Bit} {v b : Bit} {records : List Record} {c : Record}
    (hv : bits.getLast? = some v) (hr : encRecords bits = records ++ [c]) :
    encRecords (bits ++ [b]) = if b ≠ v ∨ c = 255#8 then records ++ [c] ++ [1#8] else records ++ [c + 1#8] := by
  obtain ⟨before, n, hn, hrec, hsnoc⟩ := encRecords_last hv
  have hsplit := hrec
  rw [hr] at hsplit
  obtain ⟨h1, h2⟩ := List.append_inj' hsplit rfl
  simp only [List.cons.injEq, and_true] at h2
  have hbound : n - 255 * ((n - 1) / 255) ≤ 255 := by omega
  have hc : c = 255#8 ↔ n % 255 = 0 := by
    rw [h2]
    constructor
    · intro h
      have := congrArg BitVec.toNat h
      simp at this
      omega
    · intro h
      have : n - 255 * ((n - 1) / 255) = 255 := by omega
      rw [this]
  rw [hsnoc, encRun_succ n hn]
  by_cases hb : b = v
  · rw [if_pos hb]
    by_cases hm : n % 255 = 0
    · rw [if_pos hm, if_pos (.inr (hc.2 hm)), h1, h2]
      simp [encRun]
    · rw [if_neg hm, if_neg (by simp [hb, hc, hm]), h1, h2]
      simp [BitVec.ofNat_add]
  · rw [if_neg hb, if_pos (.inl hb), h1, h2]
    simp [encRun]

theorem encRecords_nil : encRecords [] = [] := rfl

theorem encRecords_singleton (b : Bit) : encRecords [b] = if b then [0#8, 1#8] else [1#8] := by
  cases b <;> decide

/-! ### The decoder's output -/

theorem impliedBit_snoc (records : List Record) (c : Record) :
    impliedBit (records ++ [c]) = if c = 255#8 then impliedBit records else !impliedBit records := by
  unfold impliedBit
  rw [List.filter_append, List.length_append]
  by_cases h : c = 255#8
  · simp [h]
  · have h1 : (List.filter (fun c => c != 255#8) [c]).length = 1 := by simp [h]
    rw [h1, if_neg h]
    rcases Nat.mod_two_eq_zero_or_one ((List.filter (fun c => c != 255#8) records).length) with hm | hm
    · have : ((List.filter (fun c => c != 255#8) records).length + 1) % 2 = 1 := by omega
      simp [hm, this]
    · have : ((List.filter (fun c => c != 255#8) records).length + 1) % 2 = 0 := by omega
      simp [hm, this]

theorem decodedBits_nil : decodedBits [] = [] := rfl

theorem decodedBits_snoc (records : List Record) (c : Record) :
    decodedBits (records ++ [c]) = decodedBits records ++ List.replicate c.toNat (impliedBit records) := by
  unfold decodedBits
  rw [List.length_append, List.length_singleton, List.range_succ, List.flatMap_append]
  congr 1
  · apply List.flatMap_congr
    intro i hi
    have hi' : i < records.length := List.mem_range.1 hi
    rw [List.getD_append _ _ _ _ hi', List.take_append_of_le_length (by omega)]
  · simp

end Sys2Proof.Safety
end

