-- ==== Sys2Proof/Laws/State.lean ====
section
/-! SUPPORT. One lemma per field per update of State, and the fields of the state after reset, so that no proof unfolds a record
update. -/

namespace Sys2Proof.Machine

@[simp] theorem State.setRunning_running (s : State) (b : Block) : (s.setRunning b).running = b := rfl
@[simp] theorem State.setRunning_bitOrder (s : State) (b : Block) : (s.setRunning b).bitOrder = s.bitOrder := rfl
@[simp] theorem State.setRunning_enc (s : State) (b : Block) : (s.setRunning b).enc = s.enc := rfl
@[simp] theorem State.setRunning_encSrc (s : State) (b : Block) : (s.setRunning b).encSrc = s.encSrc := rfl
@[simp] theorem State.setRunning_encSnk (s : State) (b : Block) : (s.setRunning b).encSnk = s.encSnk := rfl
@[simp] theorem State.setRunning_dec (s : State) (b : Block) : (s.setRunning b).dec = s.dec := rfl
@[simp] theorem State.setRunning_decSrc (s : State) (b : Block) : (s.setRunning b).decSrc = s.decSrc := rfl
@[simp] theorem State.setRunning_decSnk (s : State) (b : Block) : (s.setRunning b).decSnk = s.decSnk := rfl
@[simp] theorem State.setRunning_schedule (s : State) (b : Block) : (s.setRunning b).schedule = s.schedule := rfl

@[simp] theorem State.setEnc_running (s : State) (r : EncRegs) : (s.setEnc r).running = s.running := rfl
@[simp] theorem State.setEnc_bitOrder (s : State) (r : EncRegs) : (s.setEnc r).bitOrder = s.bitOrder := rfl
@[simp] theorem State.setEnc_enc (s : State) (r : EncRegs) : (s.setEnc r).enc = r := rfl
@[simp] theorem State.setEnc_encSrc (s : State) (r : EncRegs) : (s.setEnc r).encSrc = s.encSrc := rfl
@[simp] theorem State.setEnc_encSnk (s : State) (r : EncRegs) : (s.setEnc r).encSnk = s.encSnk := rfl
@[simp] theorem State.setEnc_dec (s : State) (r : EncRegs) : (s.setEnc r).dec = s.dec := rfl
@[simp] theorem State.setEnc_decSrc (s : State) (r : EncRegs) : (s.setEnc r).decSrc = s.decSrc := rfl
@[simp] theorem State.setEnc_decSnk (s : State) (r : EncRegs) : (s.setEnc r).decSnk = s.decSnk := rfl
@[simp] theorem State.setEnc_schedule (s : State) (r : EncRegs) : (s.setEnc r).schedule = s.schedule := rfl

@[simp] theorem State.setEncSrc_running (s : State) (x : Source) : (s.setEncSrc x).running = s.running := rfl
@[simp] theorem State.setEncSrc_bitOrder (s : State) (x : Source) : (s.setEncSrc x).bitOrder = s.bitOrder := rfl
@[simp] theorem State.setEncSrc_enc (s : State) (x : Source) : (s.setEncSrc x).enc = s.enc := rfl
@[simp] theorem State.setEncSrc_encSrc (s : State) (x : Source) : (s.setEncSrc x).encSrc = x := rfl
@[simp] theorem State.setEncSrc_encSnk (s : State) (x : Source) : (s.setEncSrc x).encSnk = s.encSnk := rfl
@[simp] theorem State.setEncSrc_dec (s : State) (x : Source) : (s.setEncSrc x).dec = s.dec := rfl
@[simp] theorem State.setEncSrc_decSrc (s : State) (x : Source) : (s.setEncSrc x).decSrc = s.decSrc := rfl
@[simp] theorem State.setEncSrc_decSnk (s : State) (x : Source) : (s.setEncSrc x).decSnk = s.decSnk := rfl
@[simp] theorem State.setEncSrc_schedule (s : State) (x : Source) : (s.setEncSrc x).schedule = s.schedule := rfl

@[simp] theorem State.setEncSnk_running (s : State) (k : Sink) : (s.setEncSnk k).running = s.running := rfl
@[simp] theorem State.setEncSnk_bitOrder (s : State) (k : Sink) : (s.setEncSnk k).bitOrder = s.bitOrder := rfl
@[simp] theorem State.setEncSnk_enc (s : State) (k : Sink) : (s.setEncSnk k).enc = s.enc := rfl
@[simp] theorem State.setEncSnk_encSrc (s : State) (k : Sink) : (s.setEncSnk k).encSrc = s.encSrc := rfl
@[simp] theorem State.setEncSnk_encSnk (s : State) (k : Sink) : (s.setEncSnk k).encSnk = k := rfl
@[simp] theorem State.setEncSnk_dec (s : State) (k : Sink) : (s.setEncSnk k).dec = s.dec := rfl
@[simp] theorem State.setEncSnk_decSrc (s : State) (k : Sink) : (s.setEncSnk k).decSrc = s.decSrc := rfl
@[simp] theorem State.setEncSnk_decSnk (s : State) (k : Sink) : (s.setEncSnk k).decSnk = s.decSnk := rfl
@[simp] theorem State.setEncSnk_schedule (s : State) (k : Sink) : (s.setEncSnk k).schedule = s.schedule := rfl

@[simp] theorem State.setDec_running (s : State) (r : DecRegs) : (s.setDec r).running = s.running := rfl
@[simp] theorem State.setDec_bitOrder (s : State) (r : DecRegs) : (s.setDec r).bitOrder = s.bitOrder := rfl
@[simp] theorem State.setDec_enc (s : State) (r : DecRegs) : (s.setDec r).enc = s.enc := rfl
@[simp] theorem State.setDec_encSrc (s : State) (r : DecRegs) : (s.setDec r).encSrc = s.encSrc := rfl
@[simp] theorem State.setDec_encSnk (s : State) (r : DecRegs) : (s.setDec r).encSnk = s.encSnk := rfl
@[simp] theorem State.setDec_dec (s : State) (r : DecRegs) : (s.setDec r).dec = r := rfl
@[simp] theorem State.setDec_decSrc (s : State) (r : DecRegs) : (s.setDec r).decSrc = s.decSrc := rfl
@[simp] theorem State.setDec_decSnk (s : State) (r : DecRegs) : (s.setDec r).decSnk = s.decSnk := rfl
@[simp] theorem State.setDec_schedule (s : State) (r : DecRegs) : (s.setDec r).schedule = s.schedule := rfl

@[simp] theorem State.setDecSrc_running (s : State) (x : Source) : (s.setDecSrc x).running = s.running := rfl
@[simp] theorem State.setDecSrc_bitOrder (s : State) (x : Source) : (s.setDecSrc x).bitOrder = s.bitOrder := rfl
@[simp] theorem State.setDecSrc_enc (s : State) (x : Source) : (s.setDecSrc x).enc = s.enc := rfl
@[simp] theorem State.setDecSrc_encSrc (s : State) (x : Source) : (s.setDecSrc x).encSrc = s.encSrc := rfl
@[simp] theorem State.setDecSrc_encSnk (s : State) (x : Source) : (s.setDecSrc x).encSnk = s.encSnk := rfl
@[simp] theorem State.setDecSrc_dec (s : State) (x : Source) : (s.setDecSrc x).dec = s.dec := rfl
@[simp] theorem State.setDecSrc_decSrc (s : State) (x : Source) : (s.setDecSrc x).decSrc = x := rfl
@[simp] theorem State.setDecSrc_decSnk (s : State) (x : Source) : (s.setDecSrc x).decSnk = s.decSnk := rfl
@[simp] theorem State.setDecSrc_schedule (s : State) (x : Source) : (s.setDecSrc x).schedule = s.schedule := rfl

@[simp] theorem State.setDecSnk_running (s : State) (k : Sink) : (s.setDecSnk k).running = s.running := rfl
@[simp] theorem State.setDecSnk_bitOrder (s : State) (k : Sink) : (s.setDecSnk k).bitOrder = s.bitOrder := rfl
@[simp] theorem State.setDecSnk_enc (s : State) (k : Sink) : (s.setDecSnk k).enc = s.enc := rfl
@[simp] theorem State.setDecSnk_encSrc (s : State) (k : Sink) : (s.setDecSnk k).encSrc = s.encSrc := rfl
@[simp] theorem State.setDecSnk_encSnk (s : State) (k : Sink) : (s.setDecSnk k).encSnk = s.encSnk := rfl
@[simp] theorem State.setDecSnk_dec (s : State) (k : Sink) : (s.setDecSnk k).dec = s.dec := rfl
@[simp] theorem State.setDecSnk_decSrc (s : State) (k : Sink) : (s.setDecSnk k).decSrc = s.decSrc := rfl
@[simp] theorem State.setDecSnk_decSnk (s : State) (k : Sink) : (s.setDecSnk k).decSnk = k := rfl
@[simp] theorem State.setDecSnk_schedule (s : State) (k : Sink) : (s.setDecSnk k).schedule = s.schedule := rfl

@[simp] theorem State.setSchedule_running (s : State) (l : List Turn) : (s.setSchedule l).running = s.running := rfl
@[simp] theorem State.setSchedule_bitOrder (s : State) (l : List Turn) : (s.setSchedule l).bitOrder = s.bitOrder := rfl
@[simp] theorem State.setSchedule_enc (s : State) (l : List Turn) : (s.setSchedule l).enc = s.enc := rfl
@[simp] theorem State.setSchedule_encSrc (s : State) (l : List Turn) : (s.setSchedule l).encSrc = s.encSrc := rfl
@[simp] theorem State.setSchedule_encSnk (s : State) (l : List Turn) : (s.setSchedule l).encSnk = s.encSnk := rfl
@[simp] theorem State.setSchedule_dec (s : State) (l : List Turn) : (s.setSchedule l).dec = s.dec := rfl
@[simp] theorem State.setSchedule_decSrc (s : State) (l : List Turn) : (s.setSchedule l).decSrc = s.decSrc := rfl
@[simp] theorem State.setSchedule_decSnk (s : State) (l : List Turn) : (s.setSchedule l).decSnk = s.decSnk := rfl
@[simp] theorem State.setSchedule_schedule (s : State) (l : List Turn) : (s.setSchedule l).schedule = l := rfl

@[simp] theorem Source.attached_bits (input : List Bit) : (Source.attached input).bits = input := rfl
@[simp] theorem Source.attached_pos (input : List Bit) : (Source.attached input).pos = 0 := rfl
@[simp] theorem Source.attached_stalled (input : List Bit) : (Source.attached input).stalled = false := rfl
@[simp] theorem Source.attached_ending (input : List Bit) : (Source.attached input).ending = false := rfl
@[simp] theorem Sink.attached_written : Sink.attached.written = [] := rfl
@[simp] theorem Sink.attached_closed : Sink.attached.closed = false := rfl
@[simp] theorem Sink.attached_delivered : Sink.attached.delivered = none := rfl
@[simp] theorem Sink.attached_stalled : Sink.attached.stalled = false := rfl

@[simp] theorem EncRegs.reset_lastBit : EncRegs.reset.lastBit = initialBit := rfl
@[simp] theorem EncRegs.reset_count : EncRegs.reset.count = 0#8 := rfl
@[simp] theorem EncRegs.reset_phase : EncRegs.reset.phase = .active := rfl
@[simp] theorem DecRegs.reset_bit : DecRegs.reset.bit = initialBit := rfl
@[simp] theorem DecRegs.reset_chain : DecRegs.reset.chain = false := rfl
@[simp] theorem DecRegs.reset_phase : DecRegs.reset.phase = .active := rfl
@[simp] theorem DecRegs.reset_cause : DecRegs.reset.cause = .none := rfl
@[simp] theorem DecRegs.reset_faultPos : DecRegs.reset.faultPos = 0 := rfl

end Sys2Proof.Machine
end

