-- ==== Sys2Proof/Laws/Streams.lean ====
section
/-! SUPPORT. What the stream primitives and the running block's accessors of Machine/Ops.lean can do, one lemma for each outcome. -/

namespace Sys2Proof.Machine

/-! ### Source -/

theorem srcIsEmpty_iff (x : Source) : srcIsEmpty x = true ↔ remaining x = [] := by
  simp [srcIsEmpty, remaining]

theorem srcIsEmpty_eq_false_iff (x : Source) : srcIsEmpty x = false ↔ x.pos < x.bits.length := by
  simp [srcIsEmpty]

theorem remaining_length (x : Source) : (remaining x).length = x.bits.length - x.pos := by
  simp [remaining]

/-- All that SrcReadBit can do. -/
theorem srcReadBit_cases (x : Source) :
    (remaining x = [] ∧ srcReadBit x = .error .srcExhausted) ∨
    (∃ b rest, remaining x = b :: rest ∧ srcReadBit x = .ok (b, { x with pos := x.pos + 1 })) := by
  unfold srcReadBit
  cases remaining x with
  | nil => simp
  | cons b rest => simp

/-- All that SrcReadUint can do. -/
theorem srcReadUint_cases (o : BitOrder) (w : Nat) (x : Source) :
    (remaining x = [] ∧ srcReadUint o w x = .error .srcExhausted) ∨
    (remaining x ≠ [] ∧ (remaining x).length < w ∧ srcReadUint o w x = .error .srcShort) ∨
    (remaining x ≠ [] ∧ w ≤ (remaining x).length ∧
      srcReadUint o w x = .ok (uintOfBits o ((remaining x).take w), { x with pos := x.pos + w })) := by
  unfold srcReadUint
  by_cases h : remaining x = []
  · simp [h, (srcIsEmpty_iff x).2 h]
  · have he : srcIsEmpty x = false := by
      simpa using fun hx => h ((srcIsEmpty_iff x).1 hx)
    by_cases hw : (remaining x).length < w
    · have hw' := hw
      rw [remaining_length] at hw'
      simp [h, he, hw, hw']
    · have hw' := hw
      rw [remaining_length] at hw'
      simp [h, he, hw']
      rw [remaining_length]; omega

/-- All that reading a record can do: it fails on no bit, or on too few, or gives the next record. -/
theorem readRecord_cases (s : State) :
    (remaining s.decSrc = [] ∧ readRecord s = .error .srcExhausted) ∨
    (remaining s.decSrc ≠ [] ∧ (remaining s.decSrc).length < 8 ∧ readRecord s = .error .srcShort) ∨
    (remaining s.decSrc ≠ [] ∧ 8 ≤ (remaining s.decSrc).length ∧
      readRecord s = .ok (recordOfBits s.bitOrder ((remaining s.decSrc).take 8),
        s.setDecSrc { s.decSrc with pos := s.decSrc.pos + 8 })) := by
  unfold readRecord
  rcases srcReadUint_cases s.bitOrder recordWidth s.decSrc with ⟨h, hr⟩ | ⟨h, hl, hr⟩ | ⟨h, hl, hr⟩
  · exact .inl ⟨h, by rw [hr]⟩
  · exact .inr (.inl ⟨h, hl, by rw [hr]⟩)
  · exact .inr (.inr ⟨h, hl, by rw [hr]; rfl⟩)

/-- All that reading an input bit can do. -/
theorem readInputBit_cases (s : State) :
    (remaining s.encSrc = [] ∧ readInputBit s = .error .srcExhausted) ∨
    (∃ b rest, remaining s.encSrc = b :: rest ∧
      readInputBit s = .ok (b, s.setEncSrc { s.encSrc with pos := s.encSrc.pos + 1 })) := by
  unfold readInputBit
  rcases srcReadBit_cases s.encSrc with ⟨h, hr⟩ | ⟨b, rest, h, hr⟩
  · exact .inl ⟨h, by rw [hr]⟩
  · exact .inr ⟨b, rest, h, by rw [hr]⟩

/-! ### Sink -/

@[simp] theorem discarded_written (k : Sink) : (discarded k).written = [] := rfl
@[simp] theorem discarded_closed (k : Sink) : (discarded k).closed = false := rfl
@[simp] theorem discarded_delivered (k : Sink) : (discarded k).delivered = none := rfl
@[simp] theorem discarded_stalled (k : Sink) : (discarded k).stalled = k.stalled := rfl

@[simp] theorem snkAppend_written (bits : List Bit) (k : Sink) : (snkAppend bits k).written = k.written ++ bits := rfl
@[simp] theorem snkAppend_closed (bits : List Bit) (k : Sink) : (snkAppend bits k).closed = k.closed := rfl
@[simp] theorem snkAppend_delivered (bits : List Bit) (k : Sink) : (snkAppend bits k).delivered = k.delivered := rfl
@[simp] theorem snkAppend_stalled (bits : List Bit) (k : Sink) : (snkAppend bits k).stalled = k.stalled := rfl

/-- Repeating SnkWriteBit is writing one bit and then repeating one time less (R12). -/
theorem snkRepeatBit_succ (n : Nat) (b : Bit) (k : Sink) :
    snkRepeatBit (n + 1) b k = snkRepeatBit n b (snkWriteBit b k) := by
  simp [snkRepeatBit, snkWriteBit, snkAppend, List.replicate_succ]

theorem snkRepeatBit_zero (b : Bit) (k : Sink) : snkRepeatBit 0 b k = k := by
  simp [snkRepeatBit, snkAppend]

@[simp] theorem snkRepeatBit_written (n : Nat) (b : Bit) (k : Sink) :
    (snkRepeatBit n b k).written = k.written ++ List.replicate n b := rfl
@[simp] theorem snkRepeatBit_closed (n : Nat) (b : Bit) (k : Sink) : (snkRepeatBit n b k).closed = k.closed := rfl
@[simp] theorem snkRepeatBit_delivered (n : Nat) (b : Bit) (k : Sink) : (snkRepeatBit n b k).delivered = k.delivered := rfl
@[simp] theorem snkRepeatBit_stalled (n : Nat) (b : Bit) (k : Sink) : (snkRepeatBit n b k).stalled = k.stalled := rfl

@[simp] theorem snkWriteUint_written (o : BitOrder) (v w : Nat) (k : Sink) :
    (snkWriteUint o v w k).written = k.written ++ bitsOfUint o v w := rfl
@[simp] theorem snkWriteUint_closed (o : BitOrder) (v w : Nat) (k : Sink) : (snkWriteUint o v w k).closed = k.closed := rfl
@[simp] theorem snkWriteUint_delivered (o : BitOrder) (v w : Nat) (k : Sink) :
    (snkWriteUint o v w k).delivered = k.delivered := rfl
@[simp] theorem snkWriteUint_stalled (o : BitOrder) (v w : Nat) (k : Sink) : (snkWriteUint o v w k).stalled = k.stalled := rfl

@[simp] theorem snkClose_closed (o : BitOrder) (k : Sink) : (snkClose o k).closed = true := rfl
@[simp] theorem snkClose_stalled (o : BitOrder) (k : Sink) : (snkClose o k).stalled = k.stalled := rfl
@[simp] theorem snkClose_written (o : BitOrder) (k : Sink) :
    (snkClose o k).written = k.written ++ List.replicate (padLength k.written.length) padBit := rfl
theorem snkClose_delivered (o : BitOrder) (k : Sink) :
    (snkClose o k).delivered = some (packBytes o (snkClose o k).written) := rfl

theorem padLength_whole (n : Nat) : (n + padLength n) % 8 = 0 := by
  unfold padLength; omega

theorem padLength_eq_zero {n : Nat} (h : n % 8 = 0) : padLength n = 0 := by
  unfold padLength; omega

theorem snkClose_written_whole (o : BitOrder) (k : Sink) : (snkClose o k).written.length % 8 = 0 := by
  simpa using padLength_whole k.written.length

/-! ### The running block's source and sink -/

theorem State.src_enc {s : State} (h : s.running = .enc) : s.src = s.encSrc := by simp [State.src, h]
theorem State.src_dec {s : State} (h : s.running = .dec) : s.src = s.decSrc := by simp [State.src, h]
theorem State.snk_enc {s : State} (h : s.running = .enc) : s.snk = s.encSnk := by simp [State.snk, h]
theorem State.snk_dec {s : State} (h : s.running = .dec) : s.snk = s.decSnk := by simp [State.snk, h]
theorem State.setSrc_enc {s : State} (h : s.running = .enc) (x : Source) : s.setSrc x = s.setEncSrc x := by
  simp [State.setSrc, h]
theorem State.setSrc_dec {s : State} (h : s.running = .dec) (x : Source) : s.setSrc x = s.setDecSrc x := by
  simp [State.setSrc, h]
theorem State.setSnk_enc {s : State} (h : s.running = .enc) (k : Sink) : s.setSnk k = s.setEncSnk k := by
  simp [State.setSnk, h]
theorem State.setSnk_dec {s : State} (h : s.running = .dec) (k : Sink) : s.setSnk k = s.setDecSnk k := by
  simp [State.setSnk, h]

@[simp] theorem State.setSrc_src (s : State) (x : Source) : (s.setSrc x).src = x := by
  cases h : s.running <;> simp [State.setSrc, State.src, h]

@[simp] theorem State.setSrc_snk (s : State) (x : Source) : (s.setSrc x).snk = s.snk := by
  cases h : s.running <;> simp [State.setSrc, State.snk, h]

@[simp] theorem State.setSrc_isActive (s : State) (x : Source) : (s.setSrc x).isActive = s.isActive := by
  cases h : s.running <;> simp [State.setSrc, State.isActive, h]

@[simp] theorem State.setSrc_running (s : State) (x : Source) : (s.setSrc x).running = s.running := by
  cases h : s.running <;> simp [State.setSrc, h]

@[simp] theorem State.setSrc_dec_regs (s : State) (x : Source) : (s.setSrc x).dec = s.dec := by
  cases h : s.running <;> simp [State.setSrc, h]

@[simp] theorem State.setSrc_schedule (s : State) (x : Source) : (s.setSrc x).schedule = s.schedule := by
  cases h : s.running <;> simp [State.setSrc, h]

@[simp] theorem State.setSrc_setSrc (s : State) (x y : Source) : (s.setSrc x).setSrc y = s.setSrc y := by
  cases h : s.running <;> simp [State.setSrc, h] <;> rfl

@[simp] theorem State.setSnk_src (s : State) (k : Sink) : (s.setSnk k).src = s.src := by
  cases h : s.running <;> simp [State.setSnk, State.src, h]

@[simp] theorem State.setSnk_snk (s : State) (k : Sink) : (s.setSnk k).snk = k := by
  cases h : s.running <;> simp [State.setSnk, State.snk, h]

@[simp] theorem State.setSnk_isActive (s : State) (k : Sink) : (s.setSnk k).isActive = s.isActive := by
  cases h : s.running <;> simp [State.setSnk, State.isActive, h]

@[simp] theorem State.setSnk_running (s : State) (k : Sink) : (s.setSnk k).running = s.running := by
  cases h : s.running <;> simp [State.setSnk, h]

@[simp] theorem State.setSnk_dec_regs (s : State) (k : Sink) : (s.setSnk k).dec = s.dec := by
  cases h : s.running <;> simp [State.setSnk, h]

@[simp] theorem State.setSnk_schedule (s : State) (k : Sink) : (s.setSnk k).schedule = s.schedule := by
  cases h : s.running <;> simp [State.setSnk, h]

/-- Writing back the source or the sink that stands there changes nothing. -/
@[simp] theorem State.setSrc_self (s : State) : s.setSrc s.src = s := by
  cases h : s.running <;> simp [State.setSrc, State.src, h] <;> rfl

@[simp] theorem State.setSnk_self (s : State) : s.setSnk s.snk = s := by
  cases h : s.running <;> simp [State.setSnk, State.snk, h] <;> rfl


/-! ### Faults and launches -/

@[simp] theorem raiseFault_dec (c : Cause) (p : Nat) (s : State) :
    (raiseFault c p s).dec = { s.dec with phase := .fault, cause := c, faultPos := p } := rfl

theorem launch_enc (input : List Bit) (s : State) :
    launch .enc input s =
      { s with running := .enc, enc := EncRegs.reset, encSrc := Source.attached input, encSnk := Sink.attached } := rfl

theorem launch_dec (input : List Bit) (s : State) :
    launch .dec input s =
      { s with running := .dec, dec := DecRegs.reset, decSrc := Source.attached input, decSnk := Sink.attached } := rfl

/-- All that a launch can do. -/
theorem tryLaunch_next {blk : Block} {input : List Bit} {s t : State} (h : tryLaunch blk input s = .next t) :
    s.midRun = false ∧ t = launch blk input s := by
  unfold tryLaunch at h
  split at h
  · cases h
  · rename_i hm
    cases h
    exact ⟨by simpa using hm, rfl⟩

end Sys2Proof.Machine
end

