-- ==== Sys2Proof/Laws/Selection.lean ====
section
/-! SUPPORT. Step selection and the issue of an operation said once: everything `select` can answer, and everything `issue` and
`exec` can do when they answer a next state. -/

namespace Sys2Proof.Machine

/-! ### The reading of an item leaves the rest alone -/

/-- ENC with its next input bit consumed. -/
def afterBit (s : State) : State := s.setEncSrc { s.encSrc with pos := s.encSrc.pos + 1 }

/-- DEC with its next record consumed. -/
def afterRecord (s : State) : State := s.setDecSrc { s.decSrc with pos := s.decSrc.pos + 8 }

/-- DEC's next record. -/
def nextRecord (s : State) : Record := recordOfBits s.bitOrder ((remaining s.decSrc).take 8)

/-! ### Selection -/

/-- Every way `select` can answer an operation (R53). -/
theorem select_run_cases {s s' : State} {i : Instr} (h : select s = .run i s') :
    (s.running = .enc ∧ s.enc.phase = .active ∧ s.encSrc.stalled = false ∧
      ((∃ b rest, remaining s.encSrc = b :: rest ∧ i = .eBit b ∧ s' = afterBit s) ∨
       (remaining s.encSrc = [] ∧ i = .eEnd ∧ s' = s))) ∨
    (s.running = .dec ∧ s.dec.phase = .active ∧ s.decSrc.stalled = false ∧
      ((8 ≤ (remaining s.decSrc).length ∧ nextRecord s = 255#8 ∧ i = .dCont ∧ s' = afterRecord s) ∨
       (8 ≤ (remaining s.decSrc).length ∧ nextRecord s ≠ 255#8 ∧ i = .dRun (nextRecord s) ∧ s' = afterRecord s) ∨
       (remaining s.decSrc = [] ∧ s.dec.chain = false ∧ i = .dEnd ∧ s' = s))) := by
  have hgate : ∀ {j : Instr} {u : State}, gate j u = .run i s' → i = j ∧ s' = u := by
    intro j u hg
    unfold gate at hg
    split at hg
    · cases hg
    · cases hg; exact ⟨rfl, rfl⟩
  unfold select at h
  cases hrun : s.running with
  | enc =>
    left
    simp only [hrun, selectEnc] at h
    cases hp : s.enc.phase with
    | done => simp [hp] at h
    | active =>
      cases hst : s.encSrc.stalled with
      | true => simp [hp, hst] at h
      | false =>
        refine ⟨rfl, rfl, rfl, ?_⟩
        simp only [hp, hst, Bool.false_eq_true, if_false] at h
        split at h
        · rename_i he
          obtain ⟨rfl, rfl⟩ := hgate h
          exact .inr ⟨(srcIsEmpty_iff _).1 he, rfl, rfl⟩
        · rename_i he
          rcases readInputBit_cases s with ⟨hr, _⟩ | ⟨b, rest, hr, hread⟩
          · exact absurd ((srcIsEmpty_iff _).2 hr) he
          · rw [hread] at h
            obtain ⟨rfl, rfl⟩ := hgate h
            exact .inl ⟨b, rest, hr, rfl, rfl⟩
  | dec =>
    right
    simp only [hrun, selectDec] at h
    cases hp : s.dec.phase with
    | done => simp [hp] at h
    | fault => simp [hp] at h
    | active =>
      cases hst : s.decSrc.stalled with
      | true => simp [hp, hst] at h
      | false =>
        refine ⟨rfl, rfl, rfl, ?_⟩
        simp only [hp, hst, Bool.false_eq_true, if_false] at h
        split at h
        · rename_i he
          cases hc : s.dec.chain with
          | true => simp [hc] at h
          | false =>
            simp only [hc, Bool.false_eq_true, if_false] at h
            obtain ⟨rfl, rfl⟩ := hgate h
            exact .inr (.inr ⟨(srcIsEmpty_iff _).1 he, rfl, rfl, rfl⟩)
        · rcases readRecord_cases s with ⟨_, hread⟩ | ⟨_, _, hread⟩ | ⟨_, hl, hread⟩
          · rw [hread] at h; cases h
          · rw [hread] at h; cases h
          · rw [hread] at h
            obtain ⟨hi, hs'⟩ := hgate h
            by_cases hc : nextRecord s = 255#8
            · exact .inl ⟨hl, hc, by rw [hi]; exact if_pos hc, hs'⟩
            · exact .inr (.inl ⟨hl, hc, by rw [hi]; exact if_neg hc, hs'⟩)

/-- Every way `select` can answer a fault (R81). -/
theorem select_raise_cases {s : State} {cause : Cause} {pos : Nat} (h : select s = .raise cause pos) :
    s.running = .dec ∧ s.dec.phase = .active ∧ s.decSrc.stalled = false ∧ pos = s.decSrc.pos ∧
      ((remaining s.decSrc = [] ∧ s.dec.chain = true ∧ cause = .srcExhausted) ∨
       (remaining s.decSrc ≠ [] ∧ (remaining s.decSrc).length < 8 ∧ cause = .srcShort)) := by
  have hgate : ∀ {j : Instr} {u : State}, gate j u ≠ .raise cause pos := by
    intro j u hg
    unfold gate at hg
    split at hg <;> cases hg
  unfold select at h
  cases hrun : s.running with
  | enc =>
    simp only [hrun, selectEnc] at h
    cases hp : s.enc.phase with
    | done => simp [hp] at h
    | active =>
      simp only [hp] at h
      split at h
      · cases h
      · split at h
        · exact absurd h hgate
        · split at h <;> exact absurd h hgate
  | dec =>
    simp only [hrun, selectDec] at h
    cases hp : s.dec.phase with
    | done => simp [hp] at h
    | fault => simp [hp] at h
    | active =>
      cases hst : s.decSrc.stalled with
      | true => simp [hp, hst] at h
      | false =>
        refine ⟨rfl, rfl, rfl, ?_⟩
        simp only [hp, hst, Bool.false_eq_true, if_false] at h
        split at h
        · rename_i he
          cases hc : s.dec.chain with
          | true =>
            simp only [hc, if_true] at h
            cases h
            exact ⟨rfl, .inl ⟨(srcIsEmpty_iff _).1 he, rfl, rfl⟩⟩
          | false =>
            simp only [hc, Bool.false_eq_true, if_false] at h
            exact absurd h hgate
        · rename_i he
          rcases readRecord_cases s with ⟨hr, hread⟩ | ⟨hr, hl, hread⟩ | ⟨_, hl, hread⟩
          · exact absurd ((srcIsEmpty_iff _).2 hr) he
          · rw [hread] at h; cases h
            exact ⟨rfl, .inr ⟨hr, hl, rfl⟩⟩
          · rw [hread] at h
            exact absurd h hgate

/-- Every way `select` can answer that the run has ended (R18, R21). -/
theorem select_ended_cases {s : State} {why : Fault} (h : select s = .ended why) :
    (s.running = .enc ∧ s.enc.phase = .done ∧ why = .encDone) ∨
    (s.running = .dec ∧ s.dec.phase = .done ∧ why = .decDone) ∨
    (s.running = .dec ∧ s.dec.phase = .fault ∧ why = .decFault) := by
  have hgate : ∀ {j : Instr} {u : State}, gate j u ≠ .ended why := by
    intro j u hg
    unfold gate at hg
    split at hg <;> cases hg
  unfold select at h
  cases hrun : s.running with
  | enc =>
    simp only [hrun, selectEnc] at h
    cases hp : s.enc.phase with
    | done => simp only [hp] at h; cases h; exact .inl ⟨rfl, rfl, rfl⟩
    | active =>
      simp only [hp] at h
      split at h
      · cases h
      · split at h
        · exact absurd h hgate
        · split at h <;> exact absurd h hgate
  | dec =>
    simp only [hrun, selectDec] at h
    cases hp : s.dec.phase with
    | done => simp only [hp] at h; cases h; exact .inr (.inl ⟨rfl, rfl, rfl⟩)
    | fault => simp only [hp] at h; cases h; exact .inr (.inr ⟨rfl, rfl, rfl⟩)
    | active =>
      simp only [hp] at h
      split at h
      · cases h
      · split at h
        · split at h
          · cases h
          · exact absurd h hgate
        · split at h
          · exact absurd h hgate
          · cases h

theorem gate_of_ready {i : Instr} {s : State} (h : writesSink i s = true → s.snk.stalled = false) :
    gate i s = .run i s := by
  unfold gate
  cases hw : writesSink i s with
  | true => simp [h hw]
  | false => simp

theorem gate_of_stalled {i : Instr} {s : State} (hw : writesSink i s = true) (hs : s.snk.stalled = true) :
    gate i s = .hold := by
  simp [gate, hw, hs]

/-- ENC with a bit to read selects E.BIT, up to its sink (R60). -/
theorem select_bit {s : State} {b : Bit} {rest : List Bit} (hrun : s.running = .enc) (hp : s.enc.phase = .active)
    (hst : s.encSrc.stalled = false) (hr : remaining s.encSrc = b :: rest) :
    select s = gate (.eBit b) (afterBit s) := by
  have he : srcIsEmpty s.encSrc = false := by
    cases h : srcIsEmpty s.encSrc with
    | false => rfl
    | true => rw [(srcIsEmpty_iff _).1 h] at hr; cases hr
  rcases readInputBit_cases s with ⟨h, _⟩ | ⟨b', rest', h, hread⟩
  · rw [h] at hr; cases hr
  · rw [h] at hr; cases hr
    change readInputBit s = .ok (b, afterBit s) at hread
    simp only [select, hrun, selectEnc, hp, hst, he, hread, Bool.false_eq_true, if_false]
    rfl

/-- ENC at the end of its input selects E.END, up to its sink (R60). -/
theorem select_encEnd {s : State} (hrun : s.running = .enc) (hp : s.enc.phase = .active)
    (hst : s.encSrc.stalled = false) (hr : remaining s.encSrc = []) : select s = gate .eEnd s := by
  simp [select, hrun, selectEnc, hp, hst, (srcIsEmpty_iff _).2 hr, decodeEnd]

/-- DEC with a whole record to read selects D.CONT or D.RUN, up to its sink (R68). -/
theorem select_record {s : State} (hrun : s.running = .dec) (hp : s.dec.phase = .active)
    (hst : s.decSrc.stalled = false) (hl : 8 ≤ (remaining s.decSrc).length) :
    select s = gate (decodeRecord (nextRecord s)) (afterRecord s) := by
  have hne : remaining s.decSrc ≠ [] := by
    intro h; rw [h] at hl; simp at hl
  have he : srcIsEmpty s.decSrc = false := by
    cases h : srcIsEmpty s.decSrc with
    | false => rfl
    | true => exact absurd ((srcIsEmpty_iff _).1 h) hne
  rcases readRecord_cases s with ⟨h, _⟩ | ⟨_, h, _⟩ | ⟨_, _, hread⟩
  · exact absurd h hne
  · omega
  · change readRecord s = .ok (nextRecord s, afterRecord s) at hread
    simp only [select, hrun, selectDec, hp, hst, he, hread, Bool.false_eq_true, if_false]

/-- DEC at the end of its source, outside a chain, selects D.END, up to its sink (R68). -/
theorem select_decEnd {s : State} (hrun : s.running = .dec) (hp : s.dec.phase = .active)
    (hst : s.decSrc.stalled = false) (hr : remaining s.decSrc = []) (hc : s.dec.chain = false) :
    select s = gate .dEnd s := by
  simp [select, hrun, selectDec, hp, hst, (srcIsEmpty_iff _).2 hr, hc, decodeEnd]

/-- DEC at the end of its source inside a chain selects the fault SRC_EXHAUSTED (R81). -/
theorem select_exhausted {s : State} (hrun : s.running = .dec) (hp : s.dec.phase = .active)
    (hst : s.decSrc.stalled = false) (hr : remaining s.decSrc = []) (hc : s.dec.chain = true) :
    select s = .raise .srcExhausted s.decSrc.pos := by
  simp [select, hrun, selectDec, hp, hst, (srcIsEmpty_iff _).2 hr, hc]

/-- DEC with 1 to 7 bits left selects the fault SRC_SHORT (R81). -/
theorem select_short {s : State} (hrun : s.running = .dec) (hp : s.dec.phase = .active)
    (hst : s.decSrc.stalled = false) (hr : remaining s.decSrc ≠ []) (hl : (remaining s.decSrc).length < 8) :
    select s = .raise .srcShort s.decSrc.pos := by
  have he : srcIsEmpty s.decSrc = false := by
    cases h : srcIsEmpty s.decSrc with
    | false => rfl
    | true => exact absurd ((srcIsEmpty_iff _).1 h) hr
  rcases readRecord_cases s with ⟨h, _⟩ | ⟨_, _, hread⟩ | ⟨_, h, _⟩
  · exact absurd h hr
  · simp only [select, hrun, selectDec, hp, hst, he, hread, Bool.false_eq_true, if_false]
  · omega

/-- An operation is held back exactly by a sink that it needs and that cannot accept. -/
theorem gate_hold_iff (i : Instr) (s : State) : gate i s = .hold ↔ s.snk.stalled = true ∧ writesSink i s = true := by
  unfold gate
  cases s.snk.stalled <;> cases writesSink i s <;> simp

/-- When ENC holds (R86; log 6). -/
theorem select_hold_enc {s : State} (hrun : s.running = .enc) :
    select s = .hold ↔ s.enc.phase = .active ∧ (s.encSrc.stalled = true ∨
      (s.encSnk.stalled = true ∧ ∀ b, (remaining s.encSrc).head? = some b → mustEmit b s.enc = true)) := by
  cases hp : s.enc.phase with
  | done => simp [select, hrun, selectEnc, hp]
  | active =>
    cases hst : s.encSrc.stalled with
    | true => simp [select, hrun, selectEnc, hp, hst]
    | false =>
      cases hr : remaining s.encSrc with
      | nil => simp [select_encEnd hrun hp hst hr, gate_hold_iff, State.snk, hrun, writesSink]
      | cons b rest =>
        have hsnk : (afterBit s).snk = s.encSnk := by
          rw [State.snk_enc (by exact hrun)]; rfl
        have henc : (afterBit s).enc = s.enc := rfl
        simp [select_bit hrun hp hst hr, gate_hold_iff, hsnk, writesSink, henc]

/-- When DEC holds (R86; log 6). -/
theorem select_hold_dec {s : State} (hrun : s.running = .dec) :
    select s = .hold ↔ s.dec.phase = .active ∧ (s.decSrc.stalled = true ∨
      (s.decSnk.stalled = true ∧ ((remaining s.decSrc = [] ∧ s.dec.chain = false) ∨
        (8 ≤ (remaining s.decSrc).length ∧ nextRecord s ≠ 0#8)))) := by
  cases hp : s.dec.phase with
  | done => simp [select, hrun, selectDec, hp]
  | fault => simp [select, hrun, selectDec, hp]
  | active =>
    cases hst : s.decSrc.stalled with
    | true => simp [select, hrun, selectDec, hp, hst]
    | false =>
      by_cases hr : remaining s.decSrc = []
      · cases hc : s.dec.chain with
        | true => simp [select_exhausted hrun hp hst hr hc, hr]
        | false => simp [select_decEnd hrun hp hst hr hc, gate_hold_iff, State.snk, hrun, writesSink, hr]
      · by_cases hl : 8 ≤ (remaining s.decSrc).length
        · have hsnk : (afterRecord s).snk = s.decSnk := by
            rw [State.snk_dec (by exact hrun)]; rfl
          have hw : writesSink (decodeRecord (nextRecord s)) (afterRecord s) = true ↔ nextRecord s ≠ 0#8 := by
            unfold decodeRecord
            split
            · rename_i h
              exact ⟨fun _ => by rw [h]; decide, fun _ => rfl⟩
            · simp [writesSink]
          simp [select_record hrun hp hst hl, gate_hold_iff, hsnk, hw, hr, hl]
        · simp [select_short hrun hp hst hr (by omega), hr, hl]

/-- An ACTIVE block holds while its source cannot answer. -/
theorem select_of_stalledSource {s : State} (ha : s.isActive = true) (h : s.src.stalled = true) : select s = .hold := by
  cases hrun : s.running with
  | enc => exact (select_hold_enc hrun).2 ⟨by simpa [State.isActive, hrun] using ha, .inl (by simpa [State.src, hrun] using h)⟩
  | dec => exact (select_hold_dec hrun).2 ⟨by simpa [State.isActive, hrun] using ha, .inl (by simpa [State.src, hrun] using h)⟩

/-- Whether a block holds does not depend on an end of its source that has not taken effect. -/
theorem select_hold_ending (s : State) (e : Bool) :
    select (s.setSrc { s.src with ending := e }) = .hold ↔ select s = .hold := by
  cases hrun : s.running with
  | enc =>
    rw [State.setSrc_enc hrun, State.src_enc hrun, select_hold_enc hrun, select_hold_enc (by exact hrun)]
    rfl
  | dec =>
    rw [State.setSrc_dec hrun, State.src_dec hrun, select_hold_dec hrun, select_hold_dec (by exact hrun)]
    rfl

/-! ### Issue and exec -/

/-- All that `issue` can do when it answers a next state. -/
theorem issue_next {i : Instr} {s t : State} {effect : State → State} (h : issue i s effect = .next t) :
    (∃ s', select s = .run i s' ∧ t = effect s') ∨ (select s = .hold ∧ t = s) := by
  unfold issue at h
  split at h
  · split at h
    · rename_i j s' hsel hji
      cases h
      subst hji
      exact .inl ⟨s', hsel, rfl⟩
    · cases h
  · cases h
  · rename_i hsel
    cases h
    exact .inr ⟨hsel, rfl⟩
  · cases h

theorem issue_of_run {i : Instr} {s s' : State} (h : select s = .run i s') (effect : State → State) :
    issue i s effect = .next (effect s') := by
  simp [issue, h]

/-- The effect of an operation on the state in which its item has been read. -/
def effectOf : Instr → State → State
  | .eBit b => eBitEffect b
  | .eEnd => eEndEffect
  | .dCont => dContEffect
  | .dRun c => dRunEffect c
  | .dEnd => dEndEffect

theorem exec_eq_issue (i : Instr) (s : State) : exec i s = issue i s (effectOf i) := by
  cases i <;> rfl

/-- A selected operation completes. -/
theorem exec_of_run {i : Instr} {s s' : State} (h : select s = .run i s') : exec i s = .next (effectOf i s') := by
  rw [exec_eq_issue, issue_of_run h]

/-- All that `exec` can do when it answers a next state. -/
theorem exec_next {i : Instr} {s t : State} (h : exec i s = .next t) :
    (∃ s', select s = .run i s' ∧ t = effectOf i s') ∨ (select s = .hold ∧ t = s) :=
  issue_next (exec_eq_issue i s ▸ h)

end Sys2Proof.Machine
end

