-- ==== Sys2Proof/Laws/Turns.lean ====
section
/-! SUPPORT. Everything a turn of the block, a turn of the host, and a step of the machine can do when it answers a next state. -/

namespace Sys2Proof.Machine

/-! ### The block's turn -/

/-- The operations a block can complete in its turn, each with the conditions that select it and the state it leaves (R53). -/
inductive OperationOf (s : State) : State → Prop where
  | eBit (b : Bit) (rest : List Bit) (hrun : s.running = .enc) (hp : s.enc.phase = .active)
      (hst : s.encSrc.stalled = false) (hr : remaining s.encSrc = b :: rest) :
      OperationOf s (eBitEffect b (afterBit s))
  | eEnd (hrun : s.running = .enc) (hp : s.enc.phase = .active) (hst : s.encSrc.stalled = false)
      (hr : remaining s.encSrc = []) : OperationOf s (eEndEffect s)
  | dCont (hrun : s.running = .dec) (hp : s.dec.phase = .active) (hst : s.decSrc.stalled = false)
      (hl : 8 ≤ (remaining s.decSrc).length) (hc : nextRecord s = 255#8) : OperationOf s (dContEffect (afterRecord s))
  | dRun (hrun : s.running = .dec) (hp : s.dec.phase = .active) (hst : s.decSrc.stalled = false)
      (hl : 8 ≤ (remaining s.decSrc).length) (hc : nextRecord s ≠ 255#8) :
      OperationOf s (dRunEffect (nextRecord s) (afterRecord s))
  | dEnd (hrun : s.running = .dec) (hp : s.dec.phase = .active) (hst : s.decSrc.stalled = false)
      (hr : remaining s.decSrc = []) (hc : s.dec.chain = false) : OperationOf s (dEndEffect s)

/-- The faults DEC can raise in its turn (R81). -/
inductive FaultOf (s : State) : State → Prop where
  | exhausted (hrun : s.running = .dec) (hp : s.dec.phase = .active) (hst : s.decSrc.stalled = false)
      (hr : remaining s.decSrc = []) (hc : s.dec.chain = true) :
      FaultOf s (raiseFault .srcExhausted s.decSrc.pos s)
  | short (hrun : s.running = .dec) (hp : s.dec.phase = .active) (hst : s.decSrc.stalled = false)
      (hr : remaining s.decSrc ≠ []) (hl : (remaining s.decSrc).length < 8) :
      FaultOf s (raiseFault .srcShort s.decSrc.pos s)

theorem operationOf_of_run {s s' : State} {i : Instr} (h : select s = .run i s') : OperationOf s (effectOf i s') := by
  rcases select_run_cases h with ⟨hrun, hp, hst, ⟨b, rest, hr, rfl, rfl⟩ | ⟨hr, rfl, rfl⟩⟩ |
    ⟨hrun, hp, hst, ⟨hl, hc, rfl, rfl⟩ | ⟨hl, hc, rfl, rfl⟩ | ⟨hr, hc, rfl, rfl⟩⟩
  · exact .eBit b rest hrun hp hst hr
  · exact .eEnd hrun hp hst hr
  · exact .dCont hrun hp hst hl hc
  · exact .dRun hrun hp hst hl hc
  · exact .dEnd hrun hp hst hr hc

/-- All that an operation can do when `exec` answers a next state: its effect, or nothing while the block holds. -/
theorem exec_next_cases {i : Instr} {s t : State} (h : exec i s = .next t) : OperationOf s t ∨ t = s := by
  rcases exec_next h with ⟨s', hs, rfl⟩ | ⟨_, rfl⟩
  · exact .inl (operationOf_of_run hs)
  · exact .inr rfl

/-- All that the block's turn can do when it answers a next state: an operation, a fault, or a hold. -/
theorem blockTurn_next {s t : State} (h : blockTurn s = .next t) : OperationOf s t ∨ FaultOf s t ∨ t = s := by
  unfold blockTurn at h
  split at h
  · rename_i i s' hs
    rw [exec_of_run hs] at h
    cases h
    exact .inl (operationOf_of_run hs)
  · rename_i cause pos hs
    cases h
    obtain ⟨hrun, hp, hst, rfl, ⟨hr, hc, rfl⟩ | ⟨hr, hl, rfl⟩⟩ := select_raise_cases hs
    · exact .inr (.inl (.exhausted hrun hp hst hr hc))
    · exact .inr (.inl (.short hrun hp hst hr hl))
  · cases h; exact .inr (.inr rfl)
  · cases h

theorem blockTurn_of_run {s s' : State} {i : Instr} (h : select s = .run i s') : blockTurn s = exec i s := by
  simp [blockTurn, h]

theorem blockTurn_of_raise {s : State} {cause : Cause} {pos : Nat} (h : select s = .raise cause pos) :
    blockTurn s = .next (raiseFault cause pos s) := by
  simp [blockTurn, h]

theorem blockTurn_of_hold {s : State} (h : select s = .hold) : blockTurn s = .next s := by
  simp [blockTurn, h]

theorem blockTurn_of_ended {s : State} {why : Fault} (h : select s = .ended why) : blockTurn s = .fault why := by
  simp [blockTurn, h]

/-! ### The host's turn -/

/-- What the host can do to the machine in its turn (R86, R87, R91, R97). -/
inductive HostChange (s : State) : State → Prop where
  | source (stalled ending : Bool) : HostChange s (s.setSrc { s.src with stalled := stalled, ending := ending })
  | sink (stalled : Bool) : HostChange s (s.setSnk { s.snk with stalled := stalled })
  | sourceEnd (h : s.isActive = true) : HostChange s (s.setSrc (endOfSource s.src))
  | acceptedEnd (h : s.isActive = true) :
      HostChange s ((s.setSnk { s.snk with stalled := false }).setSrc (endOfSource s.src))
  | nothing : HostChange s s
  | discard (h : s.dec.phase = .fault) : HostChange s (s.setDecSnk (discarded s.decSnk))
  | launch (blk : Block) (input : List Bit) (h : s.midRun = false) : HostChange s (launch blk input s)

/-- A block waits for its sink where it would hold with a source that answers. -/
theorem waitsForSink_iff (s : State) :
    waitsForSink s = true ↔ select (s.setSrc { s.src with stalled := false }) = .hold := by
  unfold waitsForSink
  split <;> simp [*]

/-- All that ending the source can do. -/
theorem endSource_cases (s : State) :
    (s.isActive = true ∧ waitsForSink s = true ∧ endSource s = s.setSrc { s.src with ending := true }) ∨
    (s.isActive = true ∧ waitsForSink s = false ∧ endSource s = s.setSrc (endOfSource s.src)) ∨
    (s.isActive = false ∧ endSource s = s) := by
  unfold endSource
  cases s.isActive <;> cases waitsForSink s <;> simp

/-- All that the sink's acceptance can do. -/
theorem acceptSink_cases (s : State) :
    (s.isActive = true ∧ s.src.ending = true ∧
      acceptSink s = (s.setSnk { s.snk with stalled := false }).setSrc (endOfSource s.src)) ∨
    ((s.isActive = false ∨ s.src.ending = false) ∧ acceptSink s = s.setSnk { s.snk with stalled := false }) := by
  unfold acceptSink
  cases s.isActive <;> cases s.src.ending <;> simp

/-- All that the host's turn can do when it answers a next state. -/
theorem hostTurn_next {m : HostMove} {s t : State} (h : hostTurn m s = .next t) : HostChange s t := by
  cases m with
  | stallSource => cases h; exact .source true s.src.ending
  | answerSource => cases h; exact .source false s.src.ending
  | stallSink => cases h; exact .sink true
  | acceptSink =>
    cases h
    rcases acceptSink_cases s with ⟨ha, _, he⟩ | ⟨_, he⟩ <;> rw [he]
    · exact .acceptedEnd ha
    · exact .sink false
  | endSource =>
    cases h
    rcases endSource_cases s with ⟨_, _, he⟩ | ⟨ha, _, he⟩ | ⟨_, he⟩ <;> rw [he]
    · exact .source s.src.stalled true
    · exact .sourceEnd ha
    · exact .nothing
  | launch block input =>
    cases block with
    | none => cases h
    | some blk =>
      obtain ⟨hm, rfl⟩ := tryLaunch_next h
      exact .launch blk input hm
  | pipeline =>
    simp only [hostTurn] at h
    split at h
    · obtain ⟨hm, rfl⟩ := tryLaunch_next h
      exact .launch .dec _ hm
    · cases h
  | discardSink =>
    simp only [hostTurn] at h
    split at h
    · rename_i hf
      cases h; exact .discard hf
    · cases h
  | changeInput => cases h
  | writeSink => cases h
  | closeSink => cases h
  | failSink => cases h

@[simp] theorem endOfSource_stalled (x : Source) : (endOfSource x).stalled = x.stalled := rfl
@[simp] theorem endOfSource_ending (x : Source) : (endOfSource x).ending = false := rfl
@[simp] theorem endOfSource_pos (x : Source) : (endOfSource x).pos = x.pos := rfl

@[simp] theorem remaining_endOfSource (x : Source) : remaining (endOfSource x) = [] := by
  simp [remaining, endOfSource]

/-! ### The step -/

theorem step_of_block {s : State} (h : nextTurn s = .block) : step s = blockTurn (popTurn s) := by
  simp [step, oneStep, h]

theorem step_of_host {s : State} {m : HostMove} (h : nextTurn s = .host m) : step s = hostTurn m (popTurn s) := by
  simp [step, oneStep, h]

/-- All that a step can do when it answers a next state. -/
theorem step_next {s t : State} (h : step s = .next t) :
    (nextTurn s = .block ∧ (OperationOf (popTurn s) t ∨ FaultOf (popTurn s) t ∨ t = popTurn s)) ∨
    (∃ m, nextTurn s = .host m ∧ hostTurn m (popTurn s) = .next t ∧ HostChange (popTurn s) t) := by
  cases hn : nextTurn s with
  | block =>
    rw [step_of_block hn] at h
    exact .inl ⟨rfl, blockTurn_next h⟩
  | host m =>
    rw [step_of_host hn] at h
    exact .inr ⟨m, rfl, h, hostTurn_next h⟩

@[simp] theorem popTurn_running (s : State) : (popTurn s).running = s.running := rfl
@[simp] theorem popTurn_bitOrder (s : State) : (popTurn s).bitOrder = s.bitOrder := rfl
@[simp] theorem popTurn_enc (s : State) : (popTurn s).enc = s.enc := rfl
@[simp] theorem popTurn_encSrc (s : State) : (popTurn s).encSrc = s.encSrc := rfl
@[simp] theorem popTurn_encSnk (s : State) : (popTurn s).encSnk = s.encSnk := rfl
@[simp] theorem popTurn_dec (s : State) : (popTurn s).dec = s.dec := rfl
@[simp] theorem popTurn_decSrc (s : State) : (popTurn s).decSrc = s.decSrc := rfl
@[simp] theorem popTurn_decSnk (s : State) : (popTurn s).decSnk = s.decSnk := rfl
@[simp] theorem popTurn_schedule (s : State) : (popTurn s).schedule = s.schedule.tail := rfl

theorem popTurn_of_empty {s : State} (h : s.schedule = []) : popTurn s = s := by
  cases s
  simp only at h
  subst h
  rfl

theorem nextTurn_of_empty {s : State} (h : s.schedule = []) : nextTurn s = .block := by
  simp [nextTurn, h]

/-- With nothing scheduled, a step is the block's turn. -/
theorem step_of_empty {s : State} (h : s.schedule = []) : step s = blockTurn s := by
  rw [step_of_block (nextTurn_of_empty h), popTurn_of_empty h]

/-! ### The fields an effect leaves, and those it writes -/

@[simp] theorem afterBit_running (s : State) : (afterBit s).running = s.running := rfl
@[simp] theorem afterBit_bitOrder (s : State) : (afterBit s).bitOrder = s.bitOrder := rfl
@[simp] theorem afterBit_enc (s : State) : (afterBit s).enc = s.enc := rfl
@[simp] theorem afterBit_encSnk (s : State) : (afterBit s).encSnk = s.encSnk := rfl
@[simp] theorem afterRecord_running (s : State) : (afterRecord s).running = s.running := rfl
@[simp] theorem afterRecord_bitOrder (s : State) : (afterRecord s).bitOrder = s.bitOrder := rfl
@[simp] theorem afterRecord_dec (s : State) : (afterRecord s).dec = s.dec := rfl
@[simp] theorem afterRecord_decSnk (s : State) : (afterRecord s).decSnk = s.decSnk := rfl

/-- The state E.BIT leaves, field by field (R62). -/
theorem eBitEffect_eq (b : Bit) (s : State) :
    eBitEffect b s =
      if mustEmit b s.enc then
        { s with
          enc := { s.enc with lastBit := b, count := 1#8 }
          encSnk := { s.encSnk with written := s.encSnk.written ++ bitsOfRecord s.bitOrder s.enc.count } }
      else { s with enc := { s.enc with count := s.enc.count + 1#8 } } := by
  unfold eBitEffect
  split
  · simp [countBit, startRun, emitRun, writeRecord, snkWriteUint, snkAppend, bitsOfRecord, State.setEnc, State.setEncSnk]
  · rfl

/-- The state E.END leaves, field by field (R63). -/
theorem eEndEffect_eq (s : State) :
    eEndEffect s =
      { s with
        enc := { s.enc with phase := .done }
        encSnk := snkClose s.bitOrder
          { s.encSnk with
            written := s.encSnk.written ++ if 0#8 < s.enc.count then bitsOfRecord s.bitOrder s.enc.count else [] } } := by
  by_cases h : 0#8 < s.enc.count
  · simp only [eEndEffect, hasPending, h, decide_true, if_true]
    rfl
  · simp only [eEndEffect, hasPending, h, decide_false, Bool.false_eq_true, if_false, List.append_nil]
    rfl

/-- The state D.CONT leaves, field by field (R69). -/
theorem dContEffect_eq (s : State) :
    dContEffect s =
      { s with
        dec := { s.dec with chain := true }
        decSnk := { s.decSnk with written := s.decSnk.written ++ List.replicate 255 s.dec.bit } } := rfl

/-- The state D.RUN leaves, field by field (R70). -/
theorem dRunEffect_eq (c : Record) (s : State) :
    dRunEffect c s =
      { s with
        dec := { s.dec with bit := !s.dec.bit, chain := false }
        decSnk := { s.decSnk with written := s.decSnk.written ++ List.replicate c.toNat s.dec.bit } } := rfl

/-- The state D.END leaves, field by field (R71). -/
theorem dEndEffect_eq (s : State) :
    dEndEffect s = { s with dec := { s.dec with phase := .done }, decSnk := snkClose s.bitOrder s.decSnk } := rfl

end Sys2Proof.Machine
end

