-- ==== Sys2Proof/Laws/Steps.lean ====
section
/-! SUPPORT. Runs of several steps, and what an undisturbed block does in its turn. -/

namespace Sys2Proof.Safety

open Sys2Proof.Machine

@[simp] theorem runSteps_zero (s : State) : runSteps 0 s = .next s := rfl

theorem runSteps_succ_of_next {k : Nat} {s t : State} (h : step s = .next t) : runSteps (k + 1) s = runSteps k t := by
  simp [runSteps, h]

/-- Steps one after the other. -/
theorem runSteps_add {j k : Nat} {s t : State} (h : runSteps j s = .next t) : runSteps (j + k) s = runSteps k t := by
  induction j generalizing s with
  | zero =>
    simp only [runSteps_zero] at h
    cases h
    rw [Nat.zero_add]
  | succ j ih =>
    rw [Nat.add_right_comm]
    cases hs : step s with
    | next u =>
      rw [runSteps_succ_of_next hs] at h ⊢
      exact ih h
    | fault r => simp [runSteps, hs] at h
    | refused r => simp [runSteps, hs] at h

/-- One more step at the end. -/
theorem runSteps_snoc {k : Nat} {s u t : State} (h : runSteps k s = .next u) (hs : step u = .next t) :
    runSteps (k + 1) s = .next t := by
  rw [runSteps_add h, runSteps_succ_of_next hs, runSteps_zero]

/-- An undisturbed operation completes in one step. -/
theorem step_of_run {s s' : State} {i : Instr} (hsch : s.schedule = []) (h : select s = .run i s') :
    step s = .next (effectOf i s') := by
  rw [step_of_empty hsch, blockTurn_of_run h, exec_of_run h]

/-- An undisturbed fault is taken in one step. -/
theorem step_of_raise {s : State} {cause : Cause} {pos : Nat} (hsch : s.schedule = [])
    (h : select s = .raise cause pos) : step s = .next (raiseFault cause pos s) := by
  rw [step_of_empty hsch, blockTurn_of_raise h]

/-- A selected operation runs when the sink accepts. -/
theorem gate_of_accepting {i : Instr} {s : State} (h : s.snk.stalled = false) : gate i s = .run i s :=
  gate_of_ready fun _ => h

end Sys2Proof.Safety
end

