-- ==== Sys2Proof/Tests/Slice0.lean ====
section
/-! SUPPORT. The model's own tests. Expected values are those of spec/95_test_vectors.md, or written out by hand from the rule named.
The second half gives, for every statement with hypotheses, a concrete state and operands that meet them. -/

namespace Sys2Proof.Tests

open Sys2Proof.Machine Sys2Proof.Safety

/-! ### Small states -/

/-- ENC with these registers and nothing consumed of this input. -/
def encAt (lastBit : Bit) (count : Record) (input : List Bit) : State :=
  { State.reset with enc := ⟨lastBit, count, .active⟩, encSrc := Source.attached input }

/-- DEC with these registers and nothing consumed of this input. -/
def decAt (bit chain : Bit) (input : List Bit) : State :=
  { State.reset with running := .dec, dec := ⟨bit, chain, .active, .none, 0⟩, decSrc := Source.attached input }

/-- What a test looks at in a next state; `none` where there is none. -/
def seen {α : Type} (f : State → α) : Result → Option α
  | .next s => some (f s)
  | .fault _ => none
  | .refused _ => none

/-- ENC's registers, its sink's bits and its cursor. -/
def encView (s : State) : Bit × Record × List Bit × Nat := (s.enc.lastBit, s.enc.count, s.encSnk.written, s.encSrc.pos)

/-- DEC's registers, the number of bits in its sink and its cursor. -/
def decView (s : State) : Bit × Bit × Nat × Nat := (s.dec.bit, s.dec.chain, s.decSnk.written.length, s.decSrc.pos)

/-- DEC's fault registers and phase. -/
def faultView (s : State) : DecPhase × Cause × Nat := (s.dec.phase, s.dec.cause, s.dec.faultPos)

/-- The record FF on the stream, under either bit order. -/
def ff : List Bit := [true, true, true, true, true, true, true, true]

/-- The record 0A on the stream, c[7] first (R50): 0000 1010. -/
def x0A : List Bit := [false, false, false, false, true, false, true, false]

/-! ### Well-formed terms -/

/-- The one check: D.RUN of 255 is no operation (R70). -/
theorem test_wf_refuses_run_of_255 : (Instr.dRun 255#8).wf = false := by decide

/-- Its neighbours are (R54, R69, R70). -/
theorem test_wf_accepts_run_of_254_and_cont : (Instr.dRun 254#8).wf = true ∧ Instr.dCont.wf = true := by decide

/-! ### Decoding, one word per family written out from R49, R50 and R54 -/

theorem test_decode_encoder_bit : decode .msbFirst .enc [true, false] = .ok (.eBit true, [false]) := by rfl

theorem test_decode_encoder_end : decode .msbFirst .enc [] = .ok (.eEnd, []) := by rfl

theorem test_decode_cont : decode .msbFirst .dec ff = .ok (.dCont, []) := by rfl

/-- 1111 1110 is 254 with c[7] first and 127 with c[0] first. -/
theorem test_decode_run_both_orders :
    decode .msbFirst .dec [true, true, true, true, true, true, true, false] = .ok (.dRun 254, []) ∧
    decode .lsbFirst .dec [true, true, true, true, true, true, true, false] = .ok (.dRun 127, []) := ⟨rfl, rfl⟩

theorem test_decode_run_of_ten : decode .msbFirst .dec (x0A ++ [true]) = .ok (.dRun 10, [true]) := by rfl

theorem test_decode_decoder_end : decode .msbFirst .dec [] = .ok (.dEnd, []) := by rfl

/-- Seven bits are no record (R39). -/
theorem test_decode_partial_record :
    decode .msbFirst .dec [true, true, true, true, true, true, true] = .error .partialRecord := by rfl

/-- opcode_table.json: D.CONT is 0xFF, D.RUN any other value; the event row has no bits, the bit row one. -/
theorem test_table_words :
    decodeTableWord 8 0xFF = some .dCont ∧ decodeTableWord 8 0x2D = some (.dRun 0x2D) ∧
    decodeTableWord 0 0 = some .eEnd ∧ decodeTableWord 1 1 = some (.eBit true) ∧ decodeTableWord 16 0 = none := by decide

/-- The host's placing puts the word where the next step runs it: D.RUN of 10 from reset writes ten bits. -/
theorem test_fetch_word_runs : seen decView (step (State.reset.withFetchWord 8 0x0A)) = some (true, false, 10, 8) := by decide

/-! ### Single steps, values of spec/95_test_vectors.md -/

/-- E-B1: the first bit is 1. -/
theorem test_eBit_first_bit_one :
    seen encView (exec (.eBit true) (encAt false 0 [true])) = some (true, 1, List.replicate 8 false, 1) := by decide

/-- E-B7: count 4, then a 1, writes 04. -/
theorem test_eBit_ends_run :
    seen encView (exec (.eBit true) (encAt false 4 [true])) =
      some (true, 1, [false, false, false, false, false, true, false, false], 1) := by decide

/-- E-E1: the empty input gives no record and no byte. -/
theorem test_eEnd_empty : seen observe (exec .eEnd (encAt false 0 [])) = some (some (.delivered [])) := by decide

/-- E-E2: count 45 is flushed as 2D. -/
theorem test_eEnd_flushes : seen observe (exec .eEnd (encAt false 45 [])) = some (some (.delivered [0x2D#8])) := by decide

/-- D-C2: in a chain of ones, 255 more. -/
theorem test_dCont_keeps_bit : seen decView (exec .dCont (decAt true true ff)) = some (true, true, 255, 8) := by decide +kernel

/-- D-R1: ten zeros, then the bit flips. -/
theorem test_dRun_ten :
    seen (fun s => (decView s, s.decSnk.written)) (exec (.dRun 10) (decAt false false x0A)) =
      some ((true, false, 10, 8), List.replicate 10 false) := by decide

/-- D-R3: a record 0 ends a chain and writes nothing. -/
theorem test_dRun_zero_ends_chain :
    seen decView (exec (.dRun 0) (decAt false true (List.replicate 8 false))) = some (true, false, 0, 8) := by decide

/-- D-E7: one 1 bit is delivered as 80, seven zero bits of padding in it. -/
theorem test_dEnd_pads :
    seen observe (exec .dEnd { decAt false false [] with decSnk := ⟨[true], false, none, false⟩ }) =
      some (some (.delivered [0x80#8])) := by decide

/-- D-F4: four bits are too few for a record. -/
theorem test_fault_short :
    seen faultView (step (decAt false false [true, false, true, false])) = some (.fault, .srcShort, 0) := by decide

/-- D-F1: the step after a trailing 255. -/
theorem test_fault_exhausted :
    seen faultView (step { decAt false true ff with decSrc := ⟨ff, 8, false, false⟩ }) = some (.fault, .srcExhausted, 8) := by decide

/-! ### Witnesses: the hypotheses of each statement, met -/

/-- A state whose next turn is this move of the host. -/
def hostNext (m : HostMove) (s : State) : State := { s with schedule := [.host m] }

/-- ENC in the middle of a run: one bit of two consumed. -/
def midEnc : State := { encAt true 1 [true, false] with encSrc := ⟨[true, false], 1, false, false⟩ }

/-- The same with a source that cannot answer. -/
def heldEnc : State := { midEnc with encSrc := ⟨[true, false], 1, true, false⟩ }

/-- Both branches: a launch before any run, and one during a run. -/
theorem test_witness_launch :
    (nextTurn (hostNext (.launch (some .dec) ff) State.reset) = .host (.launch (some .dec) ff) ∧
      ¬ ((hostNext (.launch (some .dec) ff) State.reset).isActive = true ∧
        0 < (hostNext (.launch (some .dec) ff) State.reset).src.pos)) ∧
    (nextTurn (hostNext (.launch (some .dec) ff) midEnc) = .host (.launch (some .dec) ff) ∧
      ((hostNext (.launch (some .dec) ff) midEnc).isActive = true ∧
        0 < (hostNext (.launch (some .dec) ff) midEnc).src.pos)) := by decide

/-- No bit left, seven left, eight left. -/
theorem test_witness_srcReadUint :
    (⟨ff, 8, false, false⟩ : Source).pos = (⟨ff, 8, false, false⟩ : Source).bits.length ∧
    (⟨ff, 1, false, false⟩ : Source).pos ≤ (⟨ff, 1, false, false⟩ : Source).bits.length ∧
      (⟨ff, 1, false, false⟩ : Source).bits.length - (⟨ff, 1, false, false⟩ : Source).pos < 8 ∧
    (⟨ff, 0, false, false⟩ : Source).pos ≤ (⟨ff, 0, false, false⟩ : Source).bits.length ∧
      ¬ (⟨ff, 0, false, false⟩ : Source).bits.length - (⟨ff, 0, false, false⟩ : Source).pos < 8 := by decide

/-- The largest value of 8 bits, written and read back. -/
theorem test_witness_snkWriteUint :
    255 ≤ 2 ^ 8 - 1 ∧ 0 < 8 ∧ remaining (Source.attached (ff ++ [true])) = bitsOfUint .msbFirst 255 8 ++ [true] := by decide

/-- Whole bytes, and one bit over. -/
theorem test_witness_snkClose :
    (⟨ff, false, none, false⟩ : Sink).written.length % 8 = 0 ∧
    ((snkClose .msbFirst ⟨[true], false, none, false⟩).written = true :: List.replicate 7 false) := by decide

/-- The last bit of the only byte. -/
theorem test_witness_deliveredBytes :
    (snkClose .lsbFirst ⟨[true], false, none, false⟩).delivered = some [1#8] ∧ 0 < [1#8].length ∧ 7 < 8 := by decide

theorem test_witness_packAndUnpack : ff.length % 8 = 0 ∧ ff ≠ [] := by decide

/-- An item with bits after it, and an event at the end. -/
theorem test_witness_decodeInvertsEncode :
    ((Instr.dRun 254#8).wf = true ∧ ((Instr.dRun 254#8).width = 0 → [true] = ([] : List Bit))) ∧
    (Instr.dEnd.wf = true ∧ (Instr.dEnd.width = 0 → ([] : List Bit) = [])) := by decide

theorem test_witness_decodeReadsExactly : decode .lsbFirst .dec (ff ++ [true]) = .ok (.dCont, [true]) := by rfl

/-- One bit and seven bits; eight are accepted. -/
theorem test_witness_partialRecords :
    decode .msbFirst .dec [true] = .error .partialRecord ∧
    decode .msbFirst .dec (List.replicate 7 true) = .error .partialRecord ∧
    decode .msbFirst .dec (List.replicate 8 true) = .ok (.dCont, []) := ⟨rfl, rfl, rfl⟩

/-- For an operation with an item, and for D.END outside a chain. -/
theorem test_witness_stepRuns :
    (nextTurn (encAt false 0 [true]) = .block ∧ (encAt false 0 [true]).isActive = true ∧
      (encAt false 0 [true]).src.stalled = false ∧ (encAt false 0 [true]).snk.stalled = false ∧
      decode .msbFirst .enc (remaining (encAt false 0 [true]).src) = .ok (.eBit true, [])) ∧
    (nextTurn (decAt true false []) = .block ∧ (decAt true false []).isActive = true ∧
      (decAt true false []).src.stalled = false ∧ (decAt true false []).snk.stalled = false ∧
      decode .msbFirst .dec (remaining (decAt true false []).src) = .ok (.dEnd, []) ∧
      (Instr.dEnd = .dEnd → (decAt true false []).dec.chain = false)) :=
  ⟨⟨rfl, rfl, rfl, rfl, rfl⟩, rfl, rfl, rfl, rfl, rfl, fun _ => rfl⟩

theorem test_witness_encReady (lastBit : Bit) (count : Record) (input : List Bit) :
    EncReady (encAt lastBit count input) := ⟨rfl, rfl, rfl⟩

theorem test_witness_decReady (bit chain : Bit) (input : List Bit) : DecReady (decAt bit chain input) := ⟨rfl, rfl, rfl⟩

/-- ENC's rows of the map: one bit left, none left. -/
theorem test_witness_operationMap_enc :
    (nextTurn (encAt false 0 [true]) = .block ∧ (encAt false 0 [true]).snk.stalled = false ∧
      remaining (encAt false 0 [true]).encSrc ≠ []) ∧
    (nextTurn (encAt false 0 []) = .block ∧ (encAt false 0 []).snk.stalled = false ∧
      remaining (encAt false 0 []).encSrc = []) := by decide

/-- DEC's rows: eight bits left that are 255, or not; none left outside a chain, and in one; one bit and seven bits left. -/
theorem test_witness_operationMap_dec :
    (8 ≤ (remaining (decAt false false ff).decSrc).length ∧
      recordOfBits .msbFirst ((remaining (decAt false false ff).decSrc).take 8) = 255#8) ∧
    (8 ≤ (remaining (decAt false false x0A).decSrc).length ∧
      recordOfBits .msbFirst ((remaining (decAt false false x0A).decSrc).take 8) ≠ 255#8) ∧
    (remaining (decAt false false []).decSrc = [] ∧ (decAt false false []).dec.chain = false) ∧
    (remaining (decAt false true []).decSrc = [] ∧ (decAt false true []).dec.chain = true) ∧
    (0 < (remaining (decAt false false [true]).decSrc).length ∧ (remaining (decAt false false [true]).decSrc).length < 8) ∧
    (0 < (remaining (decAt false true (List.replicate 7 true)).decSrc).length ∧
      (remaining (decAt false true (List.replicate 7 true)).decSrc).length < 8) := by decide

/-- ACTIVE, even with a source that does not answer. -/
theorem test_witness_activeBlock :
    nextTurn { encAt false 0 [] with encSrc := ⟨[], 0, true, false⟩ } = .block ∧
    { encAt false 0 [] with encSrc := ⟨[], 0, true, false⟩ }.isActive = true := by decide

theorem test_witness_endedBlock :
    ({ State.reset with enc := ⟨false, 0, .done⟩ }.running = .enc ∧
      nextTurn { State.reset with enc := ⟨false, 0, .done⟩ } = .block) ∧
    ({ decAt false false [] with dec := ⟨false, false, .done, .none, 0⟩ }.running = .dec ∧
      nextTurn { decAt false false [] with dec := ⟨false, false, .done, .none, 0⟩ } = .block) ∧
    ({ decAt false true [] with dec := ⟨false, true, .fault, .srcExhausted, 0⟩ }.running = .dec ∧
      nextTurn { decAt false true [] with dec := ⟨false, true, .fault, .srcExhausted, 0⟩ } = .block) := by decide

/-- DEC with a sink that cannot accept. -/
def blockedDec (input : List Bit) : State := { decAt false false input with decSnk := ⟨[], false, none, true⟩ }

/-- ENC with a sink that cannot accept. -/
def blockedEnc (lastBit : Bit) (count : Record) (input : List Bit) : State :=
  { encAt lastBit count input with encSnk := ⟨[], false, none, true⟩ }

/-- Both holds. -/
theorem test_witness_hold :
    (nextTurn { encAt false 0 [] with encSrc := ⟨[], 0, true, false⟩ } = .block ∧
      { encAt false 0 [] with encSrc := ⟨[], 0, true, false⟩ }.src.stalled = true) ∧
    (nextTurn (blockedDec ff) = .block ∧ (blockedDec ff).isActive = true ∧ (blockedDec ff).src.stalled = false ∧
      (blockedDec ff).snk.stalled = true ∧ decode .msbFirst .dec (remaining (blockedDec ff).src) = .ok (.dCont, []) ∧
      (Instr.dCont = .dEnd → (blockedDec ff).dec.chain = false) ∧ writesSink .dCont (blockedDec ff) = true) :=
  ⟨⟨rfl, rfl⟩, rfl, rfl, rfl, rfl, rfl, fun _ => rfl, rfl⟩

/-- E.BIT is selected, E.END is asked for, or E.BIT itself; a fault in a chain, and with 1 and 7 bits left; a hold, in which D.RUN of
255 has a next state; and the end of the run. -/
theorem test_witness_unselected :
    (∃ s', select (encAt false 0 [true]) = .run (.eBit true) s' ∧ Instr.eEnd ≠ .eBit true) ∧
    (∃ t, exec (.eBit true) (encAt false 0 [true]) = .next t) ∧
    (∃ cause pos, select (decAt false true []) = .raise cause pos) ∧
    (∃ cause pos, select (decAt false false [true]) = .raise cause pos) ∧
    (∃ cause pos, select (decAt false false (List.replicate 7 true)) = .raise cause pos) ∧
    select (blockedDec ff) = .hold ∧ exec (.dRun 255#8) (blockedDec ff) = .next (blockedDec ff) ∧
    (∃ why, select { State.reset with enc := ⟨false, 0, .done⟩ } = .ended why) :=
  ⟨⟨_, rfl, by decide⟩, ⟨_, rfl⟩, ⟨_, _, rfl⟩, ⟨_, _, rfl⟩, ⟨_, _, rfl⟩, rfl, rfl, ⟨_, rfl⟩⟩

/-- E.BIT where it emits, at both triggers, and where it counts, up to 254, there also with a sink that cannot accept. -/
theorem test_witness_eBit :
    (remaining (encAt false 0 [true]).encSrc = [true] ∧ (true ≠ (encAt false 0 [true]).enc.lastBit) ∧
      (encAt false 0 [true]).encSnk.stalled = false) ∧
    (remaining (encAt false 255 [false]).encSrc = [false] ∧
      ((encAt false 255 [false]).enc.count = 255#8 ∧ false = (encAt false 255 [false]).enc.lastBit) ∧
      (encAt false 255 [false]).encSnk.stalled = false) ∧
    (remaining (encAt true 254 [true]).encSrc = [true] ∧
      ¬ (true ≠ (encAt true 254 [true]).enc.lastBit ∨
        ((encAt true 254 [true]).enc.count = 255#8 ∧ true = (encAt true 254 [true]).enc.lastBit))) ∧
    (remaining (blockedEnc true 254 [true]).encSrc = [true] ∧ (blockedEnc true 254 [true]).encSnk.stalled = true ∧
      ¬ (true ≠ (blockedEnc true 254 [true]).enc.lastBit ∨
        ((blockedEnc true 254 [true]).enc.count = 255#8 ∧ true = (blockedEnc true 254 [true]).enc.lastBit))) := by decide

theorem test_witness_eEnd :
    remaining (encAt true 255 []).encSrc = [] ∧ (encAt true 255 []).encSnk.stalled = false := by decide

/-- A record 255 that is the last, so the next step of the statement is reached. -/
theorem test_witness_dCont :
    8 ≤ (remaining (decAt true true ff).decSrc).length ∧
    recordOfBits (decAt true true ff).bitOrder ((remaining (decAt true true ff).decSrc).take 8) = 255#8 ∧
    (decAt true true ff).decSnk.stalled = false ∧ nextTurn (decAt true true ff) = .block ∧
    (remaining (decAt true true ff).decSrc).length = 8 := by decide

/-- The record FE on the stream, c[7] first: 1111 1110. -/
def xFE : List Bit := [true, true, true, true, true, true, true, false]

/-- c = 10 and c = 254 with a sink, and c = 0 without one. -/
theorem test_witness_dRun :
    (8 ≤ (remaining (decAt false false x0A).decSrc).length ∧
      recordOfBits .msbFirst ((remaining (decAt false false x0A).decSrc).take 8) = 10#8 ∧ 10#8 ≠ 255#8 ∧
      (10#8 ≠ 0#8 → (decAt false false x0A).decSnk.stalled = false)) ∧
    (8 ≤ (remaining (decAt true false xFE).decSrc).length ∧
      recordOfBits .msbFirst ((remaining (decAt true false xFE).decSrc).take 8) = 254#8 ∧ 254#8 ≠ 255#8 ∧
      (254#8 ≠ 0#8 → (decAt true false xFE).decSnk.stalled = false)) ∧
    (8 ≤ (remaining (blockedDec (List.replicate 8 false)).decSrc).length ∧
      recordOfBits .msbFirst ((remaining (blockedDec (List.replicate 8 false)).decSrc).take 8) = 0#8 ∧ 0#8 ≠ 255#8 ∧
      (0#8 ≠ 0#8 → (blockedDec (List.replicate 8 false)).decSnk.stalled = false)) := by decide

theorem test_witness_dEnd :
    remaining (decAt true false []).decSrc = [] ∧ (decAt true false []).dec.chain = false ∧
    (decAt true false []).decSnk.stalled = false := by decide

/-- Next states of E.BIT, where it only counts, and of E.END. -/
theorem test_witness_encoderFrame :
    (∃ t, exec (.eBit true) (encAt true 254 [true]) = .next t) ∧
    (true = (encAt true 254 [true]).enc.lastBit ∧ (encAt true 254 [true]).enc.count ≠ 255#8) ∧
    (∃ t, exec .eEnd (encAt true 254 []) = .next t) := ⟨⟨_, rfl⟩, by decide, ⟨_, rfl⟩⟩

theorem test_witness_decoderFrame :
    (∃ t, exec .dCont (decAt true true ff) = .next t) ∧
    (∃ t, exec (.dRun 0#8) (decAt true true (List.replicate 8 false)) = .next t) ∧
    (∃ t, exec .dEnd (decAt true false []) = .next t) := ⟨⟨_, rfl⟩, ⟨_, rfl⟩, ⟨_, rfl⟩⟩

/-- Both faults reached from a state not in FAULT, by a block's turn: no bit left in a chain, 1 bit left and 7 bits left. -/
theorem test_witness_faults :
    (∃ t, nextTurn (decAt false true []) = .block ∧ step (decAt false true []) = .next t ∧
      (decAt false true []).dec.phase ≠ .fault ∧ t.dec.phase = .fault ∧ remaining (decAt false true []).decSrc = []) ∧
    (∃ t, nextTurn (decAt false false [true]) = .block ∧ step (decAt false false [true]) = .next t ∧
      (decAt false false [true]).dec.phase ≠ .fault ∧ t.dec.phase = .fault ∧
      remaining (decAt false false [true]).decSrc ≠ []) ∧
    (∃ t, nextTurn (decAt false true (List.replicate 7 true)) = .block ∧
      step (decAt false true (List.replicate 7 true)) = .next t ∧
      (decAt false true (List.replicate 7 true)).dec.phase ≠ .fault ∧ t.dec.phase = .fault ∧
      remaining (decAt false true (List.replicate 7 true)).decSrc ≠ []) :=
  ⟨⟨_, rfl, rfl, by decide, rfl, rfl⟩, ⟨_, rfl, rfl, by decide, rfl, by decide⟩,
    ⟨_, rfl, rfl, by decide, rfl, by decide⟩⟩

/-- DEC in FAULT. -/
def faultedDec : State := { decAt false true ff with dec := ⟨false, true, .fault, .srcExhausted, 8⟩ }

theorem test_witness_hostTurnInFault :
    ∃ t, nextTurn (hostNext .stallSource faultedDec) = .host .stallSource ∧
      step (hostNext .stallSource faultedDec) = .next t ∧ t.dec.phase = .fault := ⟨_, rfl, rfl, rfl⟩

theorem test_witness_encoderNeverFaults :
    nextTurn (encAt true 3 [true]) = .block ∧ (encAt true 3 [true]).running = .enc ∧
    (encAt true 3 [true]).enc.phase = .active := by decide

/-- A step in FAULT that keeps the fault, and the launch that ends it. -/
theorem test_witness_faultIsSticky :
    (faultedDec.dec.phase = .fault ∧ ∃ t, step (hostNext .stallSource faultedDec) = .next t) ∧
    (∃ t, step (hostNext (.launch (some .dec) ff) faultedDec) = .next t ∧ t.dec.phase = .active) :=
  ⟨⟨rfl, _, rfl⟩, ⟨_, rfl, rfl⟩⟩

/-- DEC in a chain, held by its sink at a D.CONT; and the same with its source ended, which waits for the sink. -/
def waitingDec : State := { decAt false true ff with decSnk := ⟨[], false, none, true⟩ }
def endingDec : State := { waitingDec with decSrc := ⟨ff, 0, false, true⟩ }

theorem test_witness_hostDelays :
    nextTurn (hostNext .stallSource midEnc) = .host .stallSource ∧
    nextTurn (hostNext .answerSource midEnc) = .host .answerSource ∧
    nextTurn (hostNext .stallSink midEnc) = .host .stallSink ∧
    (nextTurn (hostNext .acceptSink midEnc) = .host .acceptSink ∧ (hostNext .acceptSink midEnc).src.ending = false) ∧
    (nextTurn (hostNext .acceptSink endingDec) = .host .acceptSink ∧ (hostNext .acceptSink endingDec).isActive = true ∧
      (hostNext .acceptSink endingDec).src.ending = true) := by decide

/-- ENC, DEC outside a chain and DEC in one, each with the source ended next; ENC with a source that cannot answer, and DEC with a sink
that cannot accept, which both hold. -/
theorem test_witness_outOfBandEnd :
    ((hostNext .endSource midEnc).schedule = [.host .endSource] ∧ (hostNext .endSource midEnc).isActive = true ∧
      (hostNext .endSource midEnc).snk.stalled = false ∧ (hostNext .endSource midEnc).running = .enc) ∧
    ((hostNext .endSource (decAt false false ff)).isActive = true ∧
      (hostNext .endSource (decAt false false ff)).snk.stalled = false ∧
      (hostNext .endSource (decAt false false ff)).dec.chain = false) ∧
    ((hostNext .endSource (decAt false true ff)).isActive = true ∧
      (hostNext .endSource (decAt false true ff)).snk.stalled = false ∧
      (hostNext .endSource (decAt false true ff)).dec.chain = true) ∧
    ((hostNext .endSource heldEnc).schedule = [.host .endSource] ∧ (hostNext .endSource heldEnc).isActive = true ∧
      step (popTurn (hostNext .endSource heldEnc)) = .next (popTurn (hostNext .endSource heldEnc))) ∧
    ((hostNext .endSource waitingDec).schedule = [.host .endSource] ∧ (hostNext .endSource waitingDec).isActive = true ∧
      step (popTurn (hostNext .endSource waitingDec)) = .next (popTurn (hostNext .endSource waitingDec))) :=
  ⟨by decide, by decide, by decide, ⟨rfl, rfl, rfl⟩, rfl, rfl, rfl⟩

/-- A block that waits for its source, and one that waits for its sink. -/
theorem test_witness_liberties :
    (heldEnc.schedule = [] ∧ heldEnc.isActive = true ∧ step heldEnc = .next heldEnc) ∧
    (waitingDec.schedule = [] ∧ waitingDec.isActive = true ∧ step waitingDec = .next waitingDec ∧
      waitingDec.src.stalled = false) := ⟨⟨rfl, rfl, rfl⟩, rfl, rfl, rfl, rfl⟩

/-- R91: ending the source of DEC held at a D.CONT in a chain raises no fault; the acceptance lets it see the empty source (R87). -/
theorem test_endSource_waits_for_sink :
    seen faultView (runSteps 2 (hostNext .endSource waitingDec)) = some (.active, .none, 0) ∧
    seen faultView (runSteps 2 (hostNext .acceptSink endingDec)) = some (.fault, .srcExhausted, 0) := by decide

/-- R91: ending the source of a held block does not lift the hold. -/
theorem test_endSource_keeps_hold :
    seen (fun s => (s.encSrc.bits, s.encSrc.stalled)) (step (hostNext .endSource heldEnc)) = some ([true], true) := by decide

/-- Both phases: DEC in FAULT, running, and DEC ACTIVE. -/
theorem test_witness_discardedSink :
    (nextTurn (hostNext .discardSink faultedDec) = .host .discardSink ∧
      (hostNext .discardSink faultedDec).dec.phase = .fault ∧ (hostNext .discardSink faultedDec).running = .dec) ∧
    (nextTurn (hostNext .discardSink (decAt false true ff)) = .host .discardSink ∧
      (hostNext .discardSink (decAt false true ff)).dec.phase ≠ .fault) := by decide

/-- ENC done, with one byte delivered. -/
def doneEnc : State :=
  { State.reset with enc := ⟨false, 255, .done⟩, encSnk := ⟨ff, true, some [255#8], false⟩ }

/-- DEC in the middle of a run, with ENC's bytes still delivered. -/
def midDec : State := { doneEnc with running := .dec, decSrc := ⟨ff, 8, false, false⟩, dec := ⟨false, true, .active, .none, 0⟩ }

/-- Before the delivery, after it, and after it during a run. -/
theorem test_witness_pipeline :
    (nextTurn (hostNext .pipeline midEnc) = .host .pipeline ∧ (hostNext .pipeline midEnc).encSnk.delivered = none) ∧
    (nextTurn (hostNext .pipeline doneEnc) = .host .pipeline ∧
      (hostNext .pipeline doneEnc).encSnk.delivered = some [255#8] ∧ ¬ ((hostNext .pipeline doneEnc).isActive = true ∧
        0 < (hostNext .pipeline doneEnc).src.pos)) ∧
    (nextTurn (hostNext .pipeline midDec) = .host .pipeline ∧
      (hostNext .pipeline midDec).encSnk.delivered = some [255#8] ∧
      (hostNext .pipeline midDec).isActive = true ∧ 0 < (hostNext .pipeline midDec).src.pos) := by decide

/-- A next state of a block's turn, for each block. -/
theorem test_witness_blockTurns :
    (∃ t, nextTurn midEnc = .block ∧ step midEnc = .next t ∧ midEnc.running = .enc) ∧
    (∃ t, nextTurn (decAt true true ff) = .block ∧ step (decAt true true ff) = .next t ∧
      (decAt true true ff).running = .dec) := ⟨⟨_, rfl, rfl, rfl⟩, ⟨_, rfl, rfl, rfl⟩⟩

/-- The invariants' hypotheses, met at reset, from which the machine has a next state. -/
theorem test_witness_invariants :
    (∃ t, step State.reset = .next t) ∧ SourceOk State.reset.encSrc ∧ CountOk State.reset ∧
    EncTracks State.reset ∧ DecTracks State.reset :=
  ⟨⟨_, rfl⟩, Nat.le_refl _, ⟨by decide, fun _ => rfl⟩,
    fun _ => ⟨fun _ => ⟨rfl, rfl, rfl⟩, fun h => absurd rfl h⟩, fun _ => ⟨rfl, rfl, rfl, by decide⟩⟩

/-- The whole invariant of the machine, met at reset. -/
theorem test_witness_machineInvariant : Inv State.reset :=
  ⟨Nat.le_refl _, Nat.le_refl _, ⟨fun h => (by cases h), fun _ => rfl⟩, ⟨fun h => (by cases h), fun _ => rfl⟩,
    ⟨by decide, rfl⟩, by decide, by decide, fun _ => ⟨rfl, rfl⟩, fun h => (by cases h), rfl, fun h => (by cases h),
    fun h => (by cases h)⟩

/-- A next state of E.BIT that is another state. -/
theorem test_witness_countAfterBit :
    ∃ t, exec (.eBit true) (encAt false 0 [true]) = .next t ∧ t ≠ encAt false 0 [true] := ⟨_, rfl, by decide⟩

/-- Nothing scheduled; each of the three kinds of stream. -/
theorem test_witness_decoderAccepts :
    State.reset.schedule = [] ∧
    (x0A.length % 8 = 0 ∧ (packBytes .msbFirst x0A).getLast? ≠ some 255#8) ∧ ([true].length % 8 ≠ 0) ∧
    (ff.length % 8 = 0 ∧ (packBytes .msbFirst ff).getLast? = some 255#8) := by decide

theorem test_witness_decoderRun : State.reset.schedule = [] ∧ ([10, 5, 20] : List Record).getLast? ≠ some 255#8 := by decide

/-- A record of ENC's output at its index. -/
theorem test_witness_encoderRun : State.reset.schedule = [] ∧ (encRecords [true])[0]? = some 0#8 := by decide

/-- T-vectors of the literal loops: a complete stream and a failed read. -/
theorem test_witness_literalDecoder :
    (literalDecoder .msbFirst 9 false (Source.attached (List.replicate 8 false)) Sink.attached).toOption.isSome = true ∧
    (literalDecoder .msbFirst 2 false (Source.attached [true]) Sink.attached).toOption.isSome = false := by decide

theorem test_witness_undisturbed : Undisturbed midEnc ∧ midEnc.isActive = true := ⟨⟨rfl, rfl, rfl⟩, rfl⟩

/-- Both branches of the round trip, and both sides of its exactness: a last run of 255, and runs that are not defective. The other
hypothesis of both statements is the empty schedule. -/
theorem test_witness_roundTrip :
    State.reset.schedule = [] ∧
    ((runsOf (List.replicate 255 false)).getLast?.any fun r => defective r.2) = true ∧
    ((runsOf [true, true, false]).getLast?.any fun r => defective r.2) = false ∧
    (∀ r ∈ (runsOf [true, true, false]).dropLast, defective r.2 = false) ∧
    ¬ (∀ r ∈ (runsOf (List.replicate 255 false ++ [true])).dropLast, defective r.2 = false) := by decide +kernel

theorem test_witness_lossless :
    (∀ r ∈ runsOf [true, true, false], defective r.2 = false) ∧
    { State.reset with schedule := List.replicate 4 Turn.block ++ [Turn.host .pipeline] }.schedule =
      List.replicate ([true, true, false].length + 1) Turn.block ++ [Turn.host .pipeline] := by decide

end Sys2Proof.Tests
end

section
/-! SUPPORT. Non-interference of the two blocks (R4, R15): exchanging everything the other block owns commutes with the running block's
selection, effect and turn. That the turn leaves the other block alone then follows, by exchanging what it owns for itself. -/

namespace Sys2Proof.Machine

/-- The same state with other registers, source and sink of ENC. -/
def State.withEncSide (r : EncRegs) (x : Source) (k : Sink) (s : State) : State := { s with enc := r, encSrc := x, encSnk := k }

/-- The same state with other registers, source and sink of DEC. -/
def State.withDecSide (r : DecRegs) (x : Source) (k : Sink) (s : State) : State := { s with dec := r, decSrc := x, decSnk := k }

/-- The same selection, with the state in which the item has been read changed by `f`. -/
def Selection.mapState (f : State → State) : Selection → Selection
  | .run i afterRead => .run i (f afterRead)
  | .raise cause pos => .raise cause pos
  | .hold => .hold
  | .ended why => .ended why

/-! ### A change of state that a block does not notice -/

theorem gate_mapState {f : State → State} {i : Instr} {s : State} (hsnk : (f s).snk = s.snk)
    (hw : writesSink i (f s) = writesSink i s) : gate i (f s) = (gate i s).mapState f := by
  unfold gate
  rw [hsnk, hw]
  split <;> rfl

/-- A selected operation is one of the running block (R53). -/
theorem select_run_block {s s' : State} {i : Instr} (h : select s = .run i s') : i.block = s.running := by
  rcases select_run_cases h with ⟨hrun, _, _, ⟨_, _, _, rfl, _⟩ | ⟨_, rfl, _⟩⟩ |
    ⟨hrun, _, _, ⟨_, _, rfl, _⟩ | ⟨_, _, rfl, _⟩ | ⟨_, _, rfl, _⟩⟩ <;> exact hrun.symm

/-- A change of state that commutes with the selection, with the effects of the running block's operations, and with the fault it may
take, commutes with the block's turn. -/
theorem blockTurn_commutes {f : State → State} {s t : State} (hsel : select (f s) = (select s).mapState f)
    (heffect : ∀ i u, i.block = s.running → effectOf i (f u) = f (effectOf i u))
    (hfault : s.running = .dec → ∀ cause pos, raiseFault cause pos (f s) = f (raiseFault cause pos s))
    (h : blockTurn s = .next t) : blockTurn (f s) = .next (f t) := by
  cases hs : select s with
  | run i u =>
    rw [hs] at hsel
    rw [blockTurn_of_run hs, exec_of_run hs] at h
    cases h
    rw [blockTurn_of_run hsel, exec_of_run hsel, heffect i u (select_run_block hs)]
  | raise cause pos =>
    rw [hs] at hsel
    rw [blockTurn_of_raise hs] at h
    cases h
    rw [blockTurn_of_raise hsel, hfault (select_raise_cases hs).1]
  | hold =>
    rw [hs] at hsel
    rw [blockTurn_of_hold hs] at h
    cases h
    exact blockTurn_of_hold hsel
  | ended why =>
    rw [blockTurn_of_ended hs] at h
    cases h

/-! ### ENC does not notice DEC -/

theorem gate_withDecSide {s : State} (hrun : s.running = .enc) (i : Instr) (r : DecRegs) (x : Source) (k : Sink) :
    gate i (s.withDecSide r x k) = (gate i s).mapState (State.withDecSide r x k) := by
  apply gate_mapState
  · rw [State.snk_enc hrun, State.snk_enc (by exact hrun)]
    rfl
  · cases i <;> rfl

/-- ENC's selection does not depend on DEC (R60). -/
theorem select_withDecSide {s : State} (hrun : s.running = .enc) (r : DecRegs) (x : Source) (k : Sink) :
    select (s.withDecSide r x k) = (select s).mapState (State.withDecSide r x k) := by
  have hrun' : (s.withDecSide r x k).running = .enc := hrun
  cases hp : s.enc.phase with
  | done => simp [select, selectEnc, State.withDecSide, hrun, hp, Selection.mapState]
  | active =>
    cases hst : s.encSrc.stalled with
    | true =>
      rw [(select_hold_enc hrun).2 ⟨hp, .inl hst⟩, (select_hold_enc hrun').2 ⟨hp, .inl hst⟩]
      rfl
    | false =>
      cases hr : remaining s.encSrc with
      | nil =>
        rw [select_encEnd hrun hp hst hr, select_encEnd hrun' hp hst hr]
        exact gate_withDecSide hrun ..
      | cons b rest =>
        rw [select_bit hrun hp hst hr, select_bit hrun' hp hst hr]
        exact gate_withDecSide (s := afterBit s) hrun ..

/-- ENC's operations neither use nor change DEC (R62, R63). -/
theorem effectOf_withDecSide {i : Instr} (hi : i.block = .enc) (r : DecRegs) (x : Source) (k : Sink) (s : State) :
    effectOf i (s.withDecSide r x k) = (effectOf i s).withDecSide r x k := by
  cases i with
  | eBit b =>
    simp only [effectOf, eBitEffect_eq, State.withDecSide]
    split <;> rfl
  | eEnd =>
    simp only [effectOf, eEndEffect_eq]
    rfl
  | dCont | dRun | dEnd => cases hi

/-- ENC's turn goes the same way whatever DEC holds. -/
theorem step_withDecSide {s t : State} (hn : nextTurn s = .block) (hrun : s.running = .enc) (h : step s = .next t)
    (r : DecRegs) (x : Source) (k : Sink) : step (s.withDecSide r x k) = .next (t.withDecSide r x k) := by
  rw [step_of_block hn] at h
  rw [step_of_block (by exact hn)]
  refine blockTurn_commutes (select_withDecSide (s := popTurn s) hrun r x k) (fun i u hi => ?_) (fun hdec => ?_) h
  · exact effectOf_withDecSide (hi.trans hrun) r x k u
  · exact absurd (hrun.symm.trans hdec) (by decide)

/-- ENC's turn leaves all that DEC owns as it is. -/
theorem step_keeps_decSide {s t : State} (hn : nextTurn s = .block) (hrun : s.running = .enc) (h : step s = .next t) :
    t.dec = s.dec ∧ t.decSrc = s.decSrc ∧ t.decSnk = s.decSnk := by
  have hself : step s = .next (t.withDecSide s.dec s.decSrc s.decSnk) := step_withDecSide hn hrun h ..
  have ht : t = t.withDecSide s.dec s.decSrc s.decSnk := Host.Outcome.next.inj (h.symm.trans hself)
  rw [ht]
  exact ⟨rfl, rfl, rfl⟩

/-! ### DEC does not notice ENC -/

theorem gate_withEncSide {s : State} (hrun : s.running = .dec) {i : Instr} (hi : i.block = .dec) (r : EncRegs) (x : Source)
    (k : Sink) : gate i (s.withEncSide r x k) = (gate i s).mapState (State.withEncSide r x k) := by
  apply gate_mapState
  · rw [State.snk_dec hrun, State.snk_dec (by exact hrun)]
    rfl
  · cases i with
    | eBit | eEnd => cases hi
    | dCont | dRun | dEnd => rfl

/-- A record is an operation of DEC (R54). -/
theorem decodeRecord_block (c : Record) : (decodeRecord c).block = .dec := by
  unfold decodeRecord
  split <;> rfl

/-- DEC's selection does not depend on ENC (R68, R81). -/
theorem select_withEncSide {s : State} (hrun : s.running = .dec) (r : EncRegs) (x : Source) (k : Sink) :
    select (s.withEncSide r x k) = (select s).mapState (State.withEncSide r x k) := by
  have hrun' : (s.withEncSide r x k).running = .dec := hrun
  cases hp : s.dec.phase with
  | done | fault => simp [select, selectDec, State.withEncSide, hrun, hp, Selection.mapState]
  | active =>
    cases hst : s.decSrc.stalled with
    | true =>
      rw [(select_hold_dec hrun).2 ⟨hp, .inl hst⟩, (select_hold_dec hrun').2 ⟨hp, .inl hst⟩]
      rfl
    | false =>
      by_cases hr : remaining s.decSrc = []
      · cases hc : s.dec.chain with
        | true =>
          rw [select_exhausted hrun hp hst hr hc, select_exhausted hrun' hp hst hr hc]
          rfl
        | false =>
          rw [select_decEnd hrun hp hst hr hc, select_decEnd hrun' hp hst hr hc]
          exact gate_withEncSide hrun rfl ..
      · by_cases hl : (remaining s.decSrc).length < 8
        · rw [select_short hrun hp hst hr hl, select_short hrun' hp hst hr hl]
          rfl
        · have hl' : 8 ≤ (remaining s.decSrc).length := Nat.le_of_not_lt hl
          rw [select_record hrun hp hst hl', select_record hrun' hp hst hl']
          exact gate_withEncSide (s := afterRecord s) hrun (decodeRecord_block _) ..

/-- DEC's operations neither use nor change ENC (R69, R70, R71). -/
theorem effectOf_withEncSide {i : Instr} (hi : i.block = .dec) (r : EncRegs) (x : Source) (k : Sink) (s : State) :
    effectOf i (s.withEncSide r x k) = (effectOf i s).withEncSide r x k := by
  cases i with
  | eBit | eEnd => cases hi
  | dCont | dRun | dEnd => rfl

/-- DEC's turn goes the same way whatever ENC holds. -/
theorem step_withEncSide {s t : State} (hn : nextTurn s = .block) (hrun : s.running = .dec) (h : step s = .next t)
    (r : EncRegs) (x : Source) (k : Sink) : step (s.withEncSide r x k) = .next (t.withEncSide r x k) := by
  rw [step_of_block hn] at h
  rw [step_of_block (by exact hn)]
  refine blockTurn_commutes (select_withEncSide (s := popTurn s) hrun r x k) (fun i u hi => ?_) (fun _ _ _ => rfl) h
  exact effectOf_withEncSide (hi.trans hrun) r x k u

/-- DEC's turn leaves all that ENC owns as it is. -/
theorem step_keeps_encSide {s t : State} (hn : nextTurn s = .block) (hrun : s.running = .dec) (h : step s = .next t) :
    t.enc = s.enc ∧ t.encSrc = s.encSrc ∧ t.encSnk = s.encSnk := by
  have hself : step s = .next (t.withEncSide s.enc s.encSrc s.encSnk) := step_withEncSide hn hrun h ..
  have ht : t = t.withEncSide s.enc s.encSrc s.encSnk := Host.Outcome.next.inj (h.symm.trans hself)
  rw [ht]
  exact ⟨rfl, rfl, rfl⟩

/-- Settles O33: the running block's turn commutes with exchanging what the other block owns, and so leaves it as it is. -/
theorem blocksShareNoState : Obligations.BlocksShareNoState := by
  unfold Obligations.BlocksShareNoState
  intro s t hn h
  constructor
  · intro hrun
    obtain ⟨hdec, hsrc, hsnk⟩ := step_keeps_decSide hn hrun h
    exact ⟨hdec, hsrc, hsnk, step_withDecSide hn hrun h⟩
  · intro hrun
    obtain ⟨henc, hsrc, hsnk⟩ := step_keeps_encSide hn hrun h
    exact ⟨henc, hsrc, hsnk, step_withEncSide hn hrun h⟩

end Sys2Proof.Machine
end

section
/-! SUPPORT. What a step can do to the side of one block, said once: its registers, its source and its sink. Every invariant of that
side is then a case analysis of `EncStep` or `DecStep`. -/

namespace Sys2Proof.Machine

@[simp] theorem State.setSrc_bitOrder (s : State) (x : Source) : (s.setSrc x).bitOrder = s.bitOrder := by
  cases h : s.running <;> simp [State.setSrc, h]

@[simp] theorem State.setSnk_bitOrder (s : State) (k : Sink) : (s.setSnk k).bitOrder = s.bitOrder := by
  cases h : s.running <;> simp [State.setSnk, h]

/-! ### What the host may do to a stream -/

/-- The cursor of a source stays, and its input too, unless an ACTIVE block sees it end at the cursor (R87). -/
def SourceKept (active : Prop) (x y : Source) : Prop :=
  y.pos = x.pos ∧ (y.bits = x.bits ∨ active ∧ y.bits = x.bits.take x.pos)

/-- All of a sink stays but its readiness. -/
def SinkKept (k l : Sink) : Prop := l.written = k.written ∧ l.closed = k.closed ∧ l.delivered = k.delivered

theorem SourceKept.refl (active : Prop) (x : Source) : SourceKept active x x := ⟨rfl, .inl rfl⟩

theorem SinkKept.refl (k : Sink) : SinkKept k k := ⟨rfl, rfl, rfl⟩

/-- The consumed part of the input stays. -/
theorem SourceKept.take_eq {active : Prop} {x y : Source} (h : SourceKept active x y) :
    y.bits.take y.pos = x.bits.take x.pos := by
  obtain ⟨hpos, hbits | ⟨_, hbits⟩⟩ := h <;> simp [hpos, hbits]

/-- What a turn of the host does to the running block's streams, to a sink it discards, or to the block it launches. -/
theorem hostChange_cases {s t : State} (h : HostChange s t) :
    (∃ x k, SourceKept (s.isActive = true) s.src x ∧ SinkKept s.snk k ∧ t = (s.setSnk k).setSrc x) ∨
    (s.dec.phase = .fault ∧ t = s.setDecSnk (discarded s.decSnk)) ∨
    (∃ blk input, t = launch blk input s) := by
  have hended : s.isActive = true → SourceKept (s.isActive = true) s.src (endOfSource s.src) :=
    fun ha => ⟨rfl, .inr ⟨ha, rfl⟩⟩
  cases h with
  | source stalled ending =>
    exact .inl ⟨{ s.src with stalled := stalled, ending := ending }, s.snk, ⟨rfl, .inl rfl⟩, .refl _, by
      rw [State.setSnk_self]⟩
  | sink stalled =>
    exact .inl ⟨s.src, { s.snk with stalled := stalled }, .refl _ _, ⟨rfl, rfl, rfl⟩, by
      simpa using (State.setSrc_self (s.setSnk { s.snk with stalled := stalled })).symm⟩
  | sourceEnd ha => exact .inl ⟨_, s.snk, hended ha, .refl _, by rw [State.setSnk_self]⟩
  | acceptedEnd ha => exact .inl ⟨_, { s.snk with stalled := false }, hended ha, ⟨rfl, rfl, rfl⟩, rfl⟩
  | nothing => exact .inl ⟨s.src, s.snk, .refl _ _, .refl _, by rw [State.setSnk_self, State.setSrc_self]⟩
  | discard hp => exact .inr (.inl ⟨hp, rfl⟩)
  | launch blk input => exact .inr (.inr ⟨blk, input, rfl⟩)

/-! ### BIT_ORDER -/

theorem OperationOf.bitOrder_eq {s t : State} (h : OperationOf s t) : t.bitOrder = s.bitOrder := by
  cases h with
  | eBit b => rw [eBitEffect_eq]; split <;> rfl
  | eEnd => rw [eEndEffect_eq]
  | dCont | dRun | dEnd => rfl

theorem HostChange.bitOrder_eq {s t : State} (h : HostChange s t) : t.bitOrder = s.bitOrder := by
  obtain ⟨x, k, _, _, rfl⟩ | ⟨_, rfl⟩ | ⟨blk, input, rfl⟩ := hostChange_cases h
  · simp
  · rfl
  · cases blk <;> rfl

/-- No step of any agent changes BIT_ORDER (R9, R37). -/
theorem step_bitOrder_eq {s t : State} (h : step s = .next t) : t.bitOrder = s.bitOrder := by
  rcases step_next h with ⟨_, hop | hfault | rfl⟩ | ⟨_, _, _, hhost⟩
  · exact hop.bitOrder_eq
  · cases hfault <;> rfl
  · rfl
  · exact hhost.bitOrder_eq

/-! ### ENC's side -/

/-- The trigger of E.BIT (R62), without the part of it that is implied. -/
theorem mustEmit_iff (b : Bit) (r : EncRegs) : mustEmit b r = true ↔ b ≠ r.lastBit ∨ r.count = 255#8 := by
  unfold mustEmit
  by_cases hb : b = r.lastBit <;> simp [hb]

theorem mustEmit_eq_false_iff (b : Bit) (r : EncRegs) : mustEmit b r = false ↔ b = r.lastBit ∧ r.count ≠ 255#8 := by
  rw [← Bool.not_eq_true, mustEmit_iff]
  simp

/-- All that a step can do to ENC, its source and its sink. -/
inductive EncStep (s t : State) : Prop where
  | kept (henc : t.enc = s.enc) (hsrc : SourceKept (s.enc.phase = .active) s.encSrc t.encSrc)
      (hsnk : SinkKept s.encSnk t.encSnk)
  | launched (input : List Bit) (henc : t.enc = EncRegs.reset) (hsrc : t.encSrc = Source.attached input)
      (hsnk : t.encSnk = Sink.attached)
  | counted (b : Bit) (rest : List Bit) (hp : s.enc.phase = .active) (hr : remaining s.encSrc = b :: rest)
      (hm : mustEmit b s.enc = false) (henc : t.enc = { s.enc with count := s.enc.count + 1#8 })
      (hsrc : t.encSrc = { s.encSrc with pos := s.encSrc.pos + 1 }) (hsnk : t.encSnk = s.encSnk)
  | emitted (b : Bit) (rest : List Bit) (hp : s.enc.phase = .active) (hr : remaining s.encSrc = b :: rest)
      (hm : mustEmit b s.enc = true) (henc : t.enc = { s.enc with lastBit := b, count := 1#8 })
      (hsrc : t.encSrc = { s.encSrc with pos := s.encSrc.pos + 1 })
      (hsnk : t.encSnk =
        { s.encSnk with written := s.encSnk.written ++ bitsOfRecord s.bitOrder s.enc.count })
  | ended (hp : s.enc.phase = .active) (hr : remaining s.encSrc = []) (henc : t.enc = { s.enc with phase := .done })
      (hsrc : t.encSrc = s.encSrc)
      (hsnk : t.encSnk = snkClose s.bitOrder
        { s.encSnk with
          written := s.encSnk.written ++ if 0#8 < s.enc.count then bitsOfRecord s.bitOrder s.enc.count else [] })

/-- What leaves ENC's side as it is. -/
theorem EncStep.of_eq {s t : State} (henc : t.enc = s.enc) (hsrc : t.encSrc = s.encSrc) (hsnk : t.encSnk = s.encSnk) :
    EncStep s t :=
  .kept henc (hsrc ▸ .refl _ _) (hsnk ▸ .refl _)

theorem OperationOf.encStep {s t : State} (h : OperationOf s t) : EncStep s t := by
  cases h with
  | eBit b rest hrun hp hst hr =>
    rw [eBitEffect_eq]
    split
    · rename_i hm
      exact .emitted b rest hp hr hm rfl rfl rfl
    · rename_i hm
      exact .counted b rest hp hr (Bool.eq_false_iff.2 hm) rfl rfl rfl
  | eEnd hrun hp hst hr =>
    rw [eEndEffect_eq]
    exact .ended hp hr rfl rfl rfl
  | dCont | dRun | dEnd => exact .of_eq rfl rfl rfl

theorem HostChange.encStep {s t : State} (h : HostChange s t) : EncStep s t := by
  obtain ⟨x, k, hx, hk, rfl⟩ | ⟨_, rfl⟩ | ⟨blk, input, rfl⟩ := hostChange_cases h
  · cases hrun : s.running with
    | enc =>
      rw [State.setSnk_enc hrun, State.setSrc_enc (by exact hrun)]
      simp only [State.isActive, State.src_enc hrun, State.snk_enc hrun, hrun, beq_iff_eq] at hx hk
      exact .kept rfl hx hk
    | dec =>
      rw [State.setSnk_dec hrun, State.setSrc_dec (by exact hrun)]
      exact .of_eq rfl rfl rfl
  · exact .of_eq rfl rfl rfl
  · cases blk with
    | enc => exact .launched input rfl rfl rfl
    | dec => exact .of_eq rfl rfl rfl

/-- All that a step of the machine can do to ENC's side. -/
theorem step_encStep {s t : State} (h : step s = .next t) : EncStep (popTurn s) t := by
  rcases step_next h with ⟨_, hop | hfault | rfl⟩ | ⟨_, _, _, hhost⟩
  · exact hop.encStep
  · cases hfault <;> exact .of_eq rfl rfl rfl
  · exact .of_eq rfl rfl rfl
  · exact hhost.encStep

/-! ### DEC's side -/

/-- All that a step can do to DEC, its source and its sink. D.CONT and D.RUN are one case, told apart by the record. -/
inductive DecStep (s t : State) : Prop where
  | kept (hdec : t.dec = s.dec) (hsrc : SourceKept (s.dec.phase = .active) s.decSrc t.decSrc)
      (hsnk : SinkKept s.decSnk t.decSnk)
  | launched (input : List Bit) (hdec : t.dec = DecRegs.reset) (hsrc : t.decSrc = Source.attached input)
      (hsnk : t.decSnk = Sink.attached)
  | discarded (hp : s.dec.phase = .fault) (hdec : t.dec = s.dec) (hsrc : t.decSrc = s.decSrc)
      (hsnk : t.decSnk = discarded s.decSnk)
  | record (hp : s.dec.phase = .active) (hl : 8 ≤ (remaining s.decSrc).length)
      (hdec : t.dec =
        { s.dec with
          bit := if nextRecord s = 255#8 then s.dec.bit else !s.dec.bit
          chain := decide (nextRecord s = 255#8) })
      (hsrc : t.decSrc = { s.decSrc with pos := s.decSrc.pos + 8 })
      (hsnk : t.decSnk =
        { s.decSnk with written := s.decSnk.written ++ List.replicate (nextRecord s).toNat s.dec.bit })
  | ended (hp : s.dec.phase = .active) (hr : remaining s.decSrc = []) (hc : s.dec.chain = false)
      (hdec : t.dec = { s.dec with phase := .done }) (hsrc : t.decSrc = s.decSrc) (hsnk : t.decSnk = snkClose s.bitOrder s.decSnk)
  | exhausted (hp : s.dec.phase = .active) (hr : remaining s.decSrc = []) (hc : s.dec.chain = true)
      (hdec : t.dec = { s.dec with phase := .fault, cause := .srcExhausted, faultPos := s.decSrc.pos })
      (hsrc : t.decSrc = s.decSrc) (hsnk : t.decSnk = s.decSnk)
  | short (hp : s.dec.phase = .active) (hr : remaining s.decSrc ≠ []) (hl : (remaining s.decSrc).length < 8)
      (hdec : t.dec = { s.dec with phase := .fault, cause := .srcShort, faultPos := s.decSrc.pos })
      (hsrc : t.decSrc = s.decSrc) (hsnk : t.decSnk = s.decSnk)

/-- What leaves DEC's side as it is. -/
theorem DecStep.of_eq {s t : State} (hdec : t.dec = s.dec) (hsrc : t.decSrc = s.decSrc) (hsnk : t.decSnk = s.decSnk) :
    DecStep s t :=
  .kept hdec (hsrc ▸ .refl _ _) (hsnk ▸ .refl _)

theorem OperationOf.decStep {s t : State} (h : OperationOf s t) : DecStep s t := by
  cases h with
  | eBit b =>
    rw [eBitEffect_eq]
    split <;> exact .of_eq rfl rfl rfl
  | eEnd =>
    rw [eEndEffect_eq]
    exact .of_eq rfl rfl rfl
  | dCont hrun hp hst hl hc => exact .record hp hl (by rw [hc]; rfl) rfl (by rw [hc]; rfl)
  | dRun hrun hp hst hl hc => exact .record hp hl (by simp [dRunEffect_eq, hc]) rfl rfl
  | dEnd hrun hp hst hr hc => exact .ended hp hr hc rfl rfl rfl

theorem FaultOf.decStep {s t : State} (h : FaultOf s t) : DecStep s t := by
  cases h with
  | exhausted hrun hp hst hr hc => exact .exhausted hp hr hc rfl rfl rfl
  | short hrun hp hst hr hl => exact .short hp hr hl rfl rfl rfl

theorem HostChange.decStep {s t : State} (h : HostChange s t) : DecStep s t := by
  obtain ⟨x, k, hx, hk, rfl⟩ | ⟨hp, rfl⟩ | ⟨blk, input, rfl⟩ := hostChange_cases h
  · cases hrun : s.running with
    | enc =>
      rw [State.setSnk_enc hrun, State.setSrc_enc (by exact hrun)]
      exact .of_eq rfl rfl rfl
    | dec =>
      rw [State.setSnk_dec hrun, State.setSrc_dec (by exact hrun)]
      simp only [State.isActive, State.src_dec hrun, State.snk_dec hrun, hrun, beq_iff_eq] at hx hk
      exact .kept rfl hx hk
  · exact .discarded hp rfl rfl rfl
  · cases blk with
    | enc => exact .of_eq rfl rfl rfl
    | dec => exact .launched input rfl rfl rfl

/-- All that a step of the machine can do to DEC's side. -/
theorem step_decStep {s t : State} (h : step s = .next t) : DecStep (popTurn s) t := by
  rcases step_next h with ⟨_, hop | hfault | rfl⟩ | ⟨_, _, _, hhost⟩
  · exact hop.decStep
  · exact hfault.decStep
  · exact .of_eq rfl rfl rfl
  · exact hhost.decStep

end Sys2Proof.Machine
end

section
/-! SUPPORT. The invariant of the machine (R20 to R22, R25, R35, R36, R38, R66, R79, R98, R99), one block's side at a time. -/

namespace Sys2Proof.Safety

open Sys2Proof.Machine

/-! ### Streams -/

theorem SourceOk.of_kept {active : Prop} {x y : Source} (hx : SourceOk x) (h : SourceKept active x y) : SourceOk y := by
  unfold SourceOk at *
  obtain ⟨hpos, hbits | ⟨_, hbits⟩⟩ := h
  · rwa [hpos, hbits]
  · rw [hpos, hbits, List.length_take]
    exact Nat.le_min.2 ⟨Nat.le_refl _, hx⟩

/-- Consuming n bits that are there keeps the cursor in the input. -/
theorem SourceOk.advance {x : Source} {n : Nat} (hn : 0 < n) (h : n ≤ (remaining x).length) :
    SourceOk { x with pos := x.pos + n } := by
  rw [remaining_length] at h
  simp only [SourceOk]
  omega

theorem SinkOk.of_kept {o : BitOrder} {k l : Sink} (hk : SinkOk o k) (h : SinkKept k l) : SinkOk o l := by
  obtain ⟨hw, hc, hd⟩ := h
  unfold SinkOk
  rwa [hw, hc, hd]

theorem SinkOk.attached (o : BitOrder) : SinkOk o Sink.attached := ⟨nofun, fun _ => rfl⟩

theorem SinkOk.discarded (o : BitOrder) (k : Sink) : SinkOk o (discarded k) := ⟨nofun, fun _ => rfl⟩

/-- What an open sink holds is free. -/
theorem SinkOk.write {o : BitOrder} {k : Sink} (hk : SinkOk o k) (hopen : k.closed = false) (w : List Bit) :
    SinkOk o { k with written := w } :=
  ⟨fun hc => absurd (hopen.symm.trans hc) (by decide), hk.2⟩

theorem SinkOk.close (o : BitOrder) (k : Sink) : SinkOk o (snkClose o k) :=
  ⟨fun _ => ⟨snkClose_written_whole o k, snkClose_delivered o k⟩, nofun⟩

/-! ### ENC's side -/

/-- What the invariant of the machine says of ENC's side. -/
def EncInv (s : State) : Prop := SourceOk s.encSrc ∧ SinkOk s.bitOrder s.encSnk ∧ EncOk s

/-- An ACTIVE ENC has an open sink. -/
theorem EncOk.open_of_active {s : State} (h : EncOk s) (hp : s.enc.phase = .active) : s.encSnk.closed = false := by
  cases hc : s.encSnk.closed with
  | false => rfl
  | true => exact absurd (hp.symm.trans (h.1.2 hc)) (by decide)

theorem EncInv.of_encStep {s t : State} (hs : EncInv s) (h : EncStep s t) (ho : t.bitOrder = s.bitOrder) : EncInv t := by
  obtain ⟨hsrcOk, hsnkOk, hok⟩ := hs
  unfold EncInv EncOk
  rw [ho]
  cases h with
  | kept henc hsrc hsnk =>
    refine ⟨hsrcOk.of_kept hsrc, hsnkOk.of_kept hsnk, ?_⟩
    obtain ⟨hw, hc, _⟩ := hsnk
    rw [henc, hw, hc]
    exact hok
  | launched input henc hsrc hsnk =>
    rw [henc, hsrc, hsnk]
    exact ⟨Nat.zero_le _, .attached _, by decide, rfl⟩
  | counted b rest hp hr hm henc hsrc hsnk =>
    rw [henc, hsrc, hsnk]
    exact ⟨.advance Nat.one_pos (by simp [hr]), hsnkOk, hok⟩
  | emitted b rest hp hr hm henc hsrc hsnk =>
    obtain ⟨hphase, hwhole⟩ := hok
    rw [henc, hsrc, hsnk]
    refine ⟨.advance Nat.one_pos (by simp [hr]), hsnkOk.write (EncOk.open_of_active ⟨hphase, hwhole⟩ hp) _, hphase, ?_⟩
    simpa using hwhole
  | ended hp hr henc hsrc hsnk =>
    rw [henc, hsrc, hsnk]
    exact ⟨hsrcOk, .close _ _, by simp, snkClose_written_whole _ _⟩

/-! ### DEC's side -/

/-- What the invariant of the machine says of DEC's side. -/
def DecInv (s : State) : Prop := SourceOk s.decSrc ∧ SinkOk s.bitOrder s.decSnk ∧ DecOk s

/-- What is left of `DecOk` for an ACTIVE DEC. -/
theorem decOk_iff_of_active {s : State} (hp : s.dec.phase = .active) :
    DecOk s ↔ s.decSnk.closed = false ∧ s.dec.cause = .none ∧ s.dec.faultPos = 0 ∧ s.decSrc.pos % 8 = 0 := by
  unfold DecOk
  cases hc : s.dec.cause <;> simp +contextual [hp]

/-- What is left of `DecOk` for a DEC that is DONE. -/
theorem decOk_iff_of_done {s : State} (hp : s.dec.phase = .done) :
    DecOk s ↔ s.decSnk.closed = true ∧ s.dec.cause = .none ∧ s.dec.faultPos = 0 ∧ s.decSrc.pos % 8 = 0 ∧
      s.dec.chain = false := by
  unfold DecOk
  cases hc : s.dec.cause <;> simp +contextual [hp, and_assoc]

theorem DecInv.of_decStep {s t : State} (hs : DecInv s) (h : DecStep s t) (ho : t.bitOrder = s.bitOrder) : DecInv t := by
  obtain ⟨hsrcOk, hsnkOk, hok⟩ := hs
  unfold DecInv
  rw [ho]
  cases h with
  | kept hdec hsrc hsnk =>
    refine ⟨hsrcOk.of_kept hsrc, hsnkOk.of_kept hsnk, ?_⟩
    obtain ⟨_, hclosed, _⟩ := hsnk
    obtain ⟨hpos, hbits | ⟨hp, _⟩⟩ := hsrc
    · unfold DecOk
      rw [hdec, hpos, hbits, hclosed]
      exact hok
    · rw [decOk_iff_of_active hp] at hok
      rwa [decOk_iff_of_active (by rw [hdec, hp]), hdec, hpos, hclosed]
  | launched input hdec hsrc hsnk =>
    rw [decOk_iff_of_active (by rw [hdec]; rfl), hdec, hsrc, hsnk]
    exact ⟨Nat.zero_le _, .attached _, rfl, rfl, rfl, rfl⟩
  | discarded hp hdec hsrc hsnk =>
    unfold DecOk at hok ⊢
    rw [hdec, hsrc, hsnk]
    exact ⟨hsrcOk, .discarded _ _, by simp [hp], hok.2⟩
  | record hp hl hdec hsrc hsnk =>
    obtain ⟨hopen, hcause, hfaultPos, hpos⟩ := (decOk_iff_of_active hp).1 hok
    rw [decOk_iff_of_active (by rw [hdec]; exact hp), hdec, hsrc, hsnk]
    exact ⟨.advance (by decide) hl, hsnkOk.write hopen _, hopen, hcause, hfaultPos, by simpa using hpos⟩
  | ended hp hr hc hdec hsrc hsnk =>
    obtain ⟨_, hcause, hfaultPos, hpos⟩ := (decOk_iff_of_active hp).1 hok
    rw [decOk_iff_of_done (by rw [hdec]), hdec, hsrc, hsnk]
    exact ⟨hsrcOk, .close _ _, rfl, hcause, hfaultPos, hpos, hc⟩
  | exhausted hp hr hc hdec hsrc hsnk =>
    obtain ⟨hopen, _, _, hpos⟩ := (decOk_iff_of_active hp).1 hok
    have hend : s.decSrc.pos = s.decSrc.bits.length :=
      Nat.le_antisymm hsrcOk (by simpa [remaining] using hr)
    unfold DecOk
    rw [hdec, hsrc, hsnk]
    exact ⟨hsrcOk, hsnkOk, by simp [hopen], by simp, by simp, by simp, hpos, fun _ => ⟨hc, hend⟩, nofun⟩
  | short hp hr hl hdec hsrc hsnk =>
    obtain ⟨hopen, _, _, hpos⟩ := (decOk_iff_of_active hp).1 hok
    have hleft : 0 < (remaining s.decSrc).length := List.length_pos_iff.2 hr
    rw [remaining_length] at hleft hl
    have hbounds : s.decSrc.pos < s.decSrc.bits.length ∧ s.decSrc.bits.length < s.decSrc.pos + 8 := by omega
    unfold DecOk
    rw [hdec, hsrc, hsnk]
    exact ⟨hsrcOk, hsnkOk, by simp [hopen], by simp, by simp, by simp, hpos, nofun, fun _ => hbounds⟩

/-! ### The whole machine -/

theorem inv_iff (s : State) : Inv s ↔ EncInv s ∧ DecInv s := by
  unfold Inv EncInv DecInv
  tauto

/-- Settles O36: a step does one of a few things to each block's side, and each keeps what the invariant says of that side. -/
theorem stepKeepsTheMachineInvariant : Obligations.StepKeepsTheMachineInvariant := by
  unfold Obligations.StepKeepsTheMachineInvariant
  intro s t hs h
  obtain ⟨henc, hdec⟩ := (inv_iff (popTurn s)).1 hs
  have ho := step_bitOrder_eq h
  exact (inv_iff t).2 ⟨henc.of_encStep (step_encStep h) ho, hdec.of_decStep (step_decStep h) ho⟩

end Sys2Proof.Safety
end

section
/-! SUPPORT. The invariants that tie a block's output to the input it has consumed (R64, R74). -/

namespace Sys2Proof.Safety

open Sys2Proof.Machine

/-- Consuming n bits adds them to the consumed part of the input. -/
theorem take_advance (x : Source) (n : Nat) :
    x.bits.take (x.pos + n) = x.bits.take x.pos ++ (remaining x).take n := List.take_add

/-! ### ENC -/

/-- ENC has consumed nothing: its registers are as after reset, and it has written nothing. -/
def EncFresh (r : EncRegs) (written : List Bit) : Prop := written = [] ∧ r.count = 0#8 ∧ r.lastBit = initialBit

/-- ENC has written the records of the consumed bits but the last, which is pending in `count`; `lastBit` is the last of those bits. -/
def EncPending (o : BitOrder) (consumed : List Bit) (r : EncRegs) (written : List Bit) : Prop :=
  ∃ records, encRecords consumed = records ++ [r.count] ∧ written = unpackBytes o records ∧
    consumed.getLast? = some r.lastBit

/-- The tracking invariant in the words of `EncFresh` and `EncPending`. -/
theorem encTracks_iff (s : State) :
    EncTracks s ↔ (s.enc.phase = .active →
      (s.encSrc.pos = 0 → EncFresh s.enc s.encSnk.written) ∧
      (s.encSrc.pos ≠ 0 → EncPending s.bitOrder (s.encSrc.bits.take s.encSrc.pos) s.enc s.encSnk.written)) := Iff.rfl

/-- A first bit 1 differs from the reset value of `lastBit`, so the empty run before it is written as a record 0. -/
theorem EncFresh.emit {r : EncRegs} {written : List Bit} {b : Bit} (h : EncFresh r written) (hm : mustEmit b r = true)
    (o : BitOrder) :
    EncPending o [b] { r with lastBit := b, count := 1#8 } (written ++ bitsOfRecord o r.count) := by
  obtain ⟨rfl, hcount, hlast⟩ := h
  have hb : b = true := by simpa [mustEmit_iff, hcount, hlast] using hm
  subst hb
  exact ⟨[0#8], rfl, by simp [hcount, unpackBytes_cons], rfl⟩

/-- A first bit 0 only counts. -/
theorem EncFresh.count {r : EncRegs} {written : List Bit} {b : Bit} (h : EncFresh r written) (hm : mustEmit b r = false)
    (o : BitOrder) : EncPending o [b] { r with count := r.count + 1#8 } written := by
  obtain ⟨rfl, hcount, hlast⟩ := h
  obtain ⟨rfl, -⟩ := (mustEmit_eq_false_iff b r).1 hm
  rw [hcount, hlast]
  exact ⟨[], rfl, rfl, by simp⟩

/-- A bit that emits: the pending record is written, and the new run's record 1 is pending. -/
theorem EncPending.emit {o : BitOrder} {consumed written : List Bit} {r : EncRegs} {b : Bit}
    (h : EncPending o consumed r written) (hm : mustEmit b r = true) :
    EncPending o (consumed ++ [b]) { r with lastBit := b, count := 1#8 } (written ++ bitsOfRecord o r.count) := by
  obtain ⟨records, hrecords, rfl, hlast⟩ := h
  refine ⟨records ++ [r.count], ?_, ?_, by simp⟩
  · rw [encRecords_snoc hlast hrecords, if_pos ((mustEmit_iff b r).1 hm)]
  · simp [unpackBytes_append, unpackBytes_cons]

/-- A bit that only counts: the pending record is one more. -/
theorem EncPending.count {o : BitOrder} {consumed written : List Bit} {r : EncRegs} {b : Bit}
    (h : EncPending o consumed r written) (hm : mustEmit b r = false) :
    EncPending o (consumed ++ [b]) { r with count := r.count + 1#8 } written := by
  obtain ⟨records, hrecords, hwritten, hlast⟩ := h
  obtain ⟨hb, hcount⟩ := (mustEmit_eq_false_iff b r).1 hm
  refine ⟨records, ?_, hwritten, by simp [hb]⟩
  rw [encRecords_snoc hlast hrecords, if_neg (by simp [hb, hcount])]

/-- A consumed bit keeps the tracking, if registers and sink account for one bit more. -/
theorem encTracks_of_bit {s t : State} {b : Bit} {rest : List Bit} (hs : EncTracks s) (hp : s.enc.phase = .active)
    (hr : remaining s.encSrc = b :: rest) (hsrc : t.encSrc = { s.encSrc with pos := s.encSrc.pos + 1 })
    (ho : t.bitOrder = s.bitOrder)
    (hfirst : EncFresh s.enc s.encSnk.written → EncPending s.bitOrder [b] t.enc t.encSnk.written)
    (hnext : ∀ consumed, EncPending s.bitOrder consumed s.enc s.encSnk.written →
      EncPending s.bitOrder (consumed ++ [b]) t.enc t.encSnk.written) : EncTracks t := by
  obtain ⟨hfresh, hpending⟩ := (encTracks_iff s).1 hs hp
  rw [encTracks_iff, ho, hsrc]
  refine fun _ => ⟨nofun, fun _ => ?_⟩
  simp only [take_advance, hr, List.take_succ_cons, List.take_zero]
  by_cases h0 : s.encSrc.pos = 0
  · simpa [h0] using hfirst (hfresh h0)
  · exact hnext _ (hpending h0)

theorem EncTracks.of_encStep {s t : State} (hs : EncTracks s) (h : EncStep s t) (ho : t.bitOrder = s.bitOrder) :
    EncTracks t := by
  intro hp'
  cases h with
  | kept henc hsrc hsnk =>
    obtain ⟨hw, -, -⟩ := hsnk
    rw [ho, henc, hsrc.take_eq, hsrc.1, hw]
    exact hs (henc ▸ hp')
  | launched input henc hsrc hsnk =>
    rw [henc, hsrc, hsnk]
    exact ⟨fun _ => ⟨rfl, rfl, rfl⟩, fun h0 => absurd rfl h0⟩
  | counted b rest hp hr hm henc hsrc hsnk =>
    refine encTracks_of_bit hs hp hr hsrc ho (fun hfresh => ?_) (fun _ hpending => ?_) hp' <;> rw [henc, hsnk]
    · exact hfresh.count hm _
    · exact hpending.count hm
  | emitted b rest hp hr hm henc hsrc hsnk =>
    refine encTracks_of_bit hs hp hr hsrc ho (fun hfresh => ?_) (fun _ hpending => ?_) hp' <;> rw [henc, hsnk]
    · exact hfresh.emit hm _
    · exact hpending.emit hm
  | ended hp hr henc =>
    rw [henc] at hp'
    cases hp'

/-- Settles O40: each bit that E.BIT consumes grows the closed form of the input by `encRecords_snoc`, and no other step changes what
the invariant speaks of while ENC is ACTIVE, but for a launch, which starts it afresh. -/
theorem stepKeepsEncoderTracking : Obligations.StepKeepsEncoderTracking := by
  unfold Obligations.StepKeepsEncoderTracking
  intro s t hs h
  have ho := step_bitOrder_eq h
  exact EncTracks.of_encStep (s := popTurn s) hs (step_encStep h) ho

/-! ### DEC -/

/-- A record consumed at a record boundary is one more consumed record. -/
theorem consumedRecords_advance {s t : State} (ho : t.bitOrder = s.bitOrder) (hpos : s.decSrc.pos % 8 = 0)
    (hl : 8 ≤ (remaining s.decSrc).length) (hsrc : t.decSrc = { s.decSrc with pos := s.decSrc.pos + 8 }) :
    consumedRecords t = consumedRecords s ++ [nextRecord s] := by
  rw [consumedRecords, ho, hsrc, take_advance]
  rw [remaining_length] at hl
  apply packBytes_snoc s.bitOrder (s.decSrc.pos / 8)
  · rw [List.length_take]
    omega
  · rw [List.length_take, remaining_length]
    omega

theorem DecTracks.of_decStep {s t : State} (hs : DecTracks s) (h : DecStep s t) (ho : t.bitOrder = s.bitOrder) :
    DecTracks t := by
  intro hp'
  cases h with
  | kept hdec hsrc hsnk =>
    obtain ⟨hw, -, -⟩ := hsnk
    have hrecords : consumedRecords t = consumedRecords s := by
      rw [consumedRecords, consumedRecords, ho, hsrc.take_eq]
    rw [hrecords, hdec, hsrc.1, hw]
    exact hs (hdec ▸ hp')
  | launched input hdec hsrc hsnk =>
    have hrecords : consumedRecords t = [] := by
      rw [consumedRecords, hsrc]
      rfl
    rw [hrecords, hdec, hsrc, hsnk]
    exact ⟨rfl, rfl, rfl, by simp⟩
  | discarded hp hdec =>
    rw [hdec, hp] at hp'
    cases hp'
  | record hp hl hdec hsrc hsnk =>
    obtain ⟨hpos, hwritten, hbit, -⟩ := hs hp
    rw [consumedRecords_advance ho hpos hl hsrc, hdec, hsrc, hsnk, decodedBits_snoc, impliedBit_snoc, hwritten, hbit]
    refine ⟨?_, rfl, rfl, by simp⟩
    simpa using hpos
  | ended _ _ _ hdec | exhausted _ _ _ hdec | short _ _ _ hdec =>
    rw [hdec] at hp'
    cases hp'

/-- Settles O41: a record that DEC consumes grows the closed forms by `decodedBits_snoc` and `impliedBit_snoc`, and no other step
changes what the invariant speaks of while DEC is ACTIVE, but for a launch, which starts it afresh. -/
theorem stepKeepsDecoderTracking : Obligations.StepKeepsDecoderTracking := by
  unfold Obligations.StepKeepsDecoderTracking
  intro s t hs h
  have ho := step_bitOrder_eq h
  exact DecTracks.of_decStep (s := popTurn s) hs (step_decStep h) ho

end Sys2Proof.Safety
end

section
/-! SUPPORT. Packing and unpacking of bytes (R25, R36, R37). -/

namespace Sys2Proof

theorem packBytes_unpackBytes (o : BitOrder) (bytes : List Byte) : packBytes o (unpackBytes o bytes) = bytes := by
  induction bytes with
  | nil => rfl
  | cons c cs ih =>
    rw [unpackBytes_cons, packBytes_append_of_eight o _ _ (bitsOfRecord_length o c), recordOfBits_bitsOfRecord, ih]

theorem unpackBytes_packBytes (o : BitOrder) (n : Nat) (bits : List Bit) (h : bits.length = 8 * n) :
    unpackBytes o (packBytes o bits) = bits := by
  induction n generalizing bits with
  | zero =>
    obtain rfl : bits = [] := by simpa using h
    rfl
  | succ n ih =>
    have hbyte : (bits.take 8).length = 8 := by
      rw [List.length_take]
      omega
    have hrest : (bits.drop 8).length = 8 * n := by
      rw [List.length_drop]
      omega
    conv_lhs => rw [← List.take_append_drop 8 bits]
    rw [packBytes_append_of_eight o _ _ hbyte, unpackBytes_cons, bitsOfRecord_recordOfBits o _ hbyte, ih _ hrest,
      List.take_append_drop]

/-- Settles O8: byte by byte, a record of 8 bits and back. -/
theorem packAndUnpackAreInverse : Obligations.PackAndUnpackAreInverse := by
  unfold Obligations.PackAndUnpackAreInverse
  intro o
  refine ⟨packBytes_unpackBytes o, fun bits h => unpackBytes_packBytes o (bits.length / 8) bits ?_⟩
  omega

end Sys2Proof
end

section
/-! SUPPORT. What `exec` answers where the state does not select the operation (R53, log 8, log 9), what it leaves unchanged where it
does (R62, R63, R69 to R71), and the block's turn after the end of its run (R18, R21). -/

namespace Sys2Proof.Machine

/-! ### Operations that are not selected -/

theorem exec_of_run_other {i j : Instr} {s s' : State} (h : select s = .run j s') (hij : i ≠ j) :
    exec i s = .refused .notSelected := by
  rw [exec_eq_issue, issue, h]
  exact if_neg hij.symm

theorem exec_of_raise {cause : Cause} {pos : Nat} {s : State} (h : select s = .raise cause pos) (i : Instr) :
    exec i s = .refused .notSelected := by
  rw [exec_eq_issue, issue, h]

theorem exec_of_hold {s : State} (h : select s = .hold) (i : Instr) : exec i s = .next s := by
  rw [exec_eq_issue, issue, h]

theorem exec_of_ended {why : Fault} {s : State} (h : select s = .ended why) (i : Instr) : exec i s = .fault why := by
  rw [exec_eq_issue, issue, h]

/-- What is selected is an operation of the hardware (R53, R70). -/
theorem select_run_wf {i : Instr} {s s' : State} (h : select s = .run i s') : i.wf = true := by
  rcases select_run_cases h with ⟨_, _, _, ⟨b, _, _, rfl, _⟩ | ⟨_, rfl, _⟩⟩ |
    ⟨_, _, _, ⟨_, _, rfl, _⟩ | ⟨_, hc, rfl, _⟩ | ⟨_, _, rfl, _⟩⟩
  case inr.inr.inl => simpa [Instr.wf] using hc
  all_goals rfl

/-- Settles O18: case by case of the selection; D.RUN of 255 is no operation of the hardware, so no state selects it. -/
theorem unselectedOperationHasNoEffect : Obligations.UnselectedOperationHasNoEffect := by
  unfold Obligations.UnselectedOperationHasNoEffect
  intro s i
  refine ⟨fun t h => ?_, fun j s' h hij => exec_of_run_other h hij, fun cause pos h => exec_of_raise h i,
    fun h => exec_of_hold h i, fun why h => exec_of_ended h i, fun t h => ?_⟩
  · obtain ⟨s', hs, -⟩ | ⟨-, ht⟩ := exec_next h
    · exact .inl ⟨s', hs⟩
    · exact .inr ht
  · obtain ⟨s', hs, -⟩ | ⟨-, ht⟩ := exec_next h
    · exact absurd (select_run_wf hs) (by decide)
    · exact ht

/-! ### What operations leave unchanged -/

/-- The state in which the item of an operation has been read. -/
def afterItem : Instr → State → State
  | .eBit _, s => afterBit s
  | .eEnd, s => s
  | .dCont, s => afterRecord s
  | .dRun _, s => afterRecord s
  | .dEnd, s => s

theorem select_run_afterItem {i : Instr} {s s' : State} (h : select s = .run i s') : s' = afterItem i s := by
  rcases select_run_cases h with ⟨_, _, _, ⟨b, _, _, rfl, h'⟩ | ⟨_, rfl, h'⟩⟩ |
    ⟨_, _, _, ⟨_, _, rfl, h'⟩ | ⟨_, _, rfl, h'⟩ | ⟨_, _, rfl, h'⟩⟩ <;> exact h'

/-- All that `exec` of one operation can leave: its effect with its item consumed, or the same state. -/
theorem exec_next_effect {i : Instr} {s t : State} (h : exec i s = .next t) :
    t = effectOf i (afterItem i s) ∨ t = s := by
  obtain ⟨s', hs, rfl⟩ | ⟨-, rfl⟩ := exec_next h
  · exact .inl (by rw [select_run_afterItem hs])
  · exact .inr rfl

/-- Settles O21: from the state that E.BIT or E.END leaves; a bit equal to `lastBit`, with `count` below 255, does not emit. -/
theorem encoderOperationFrame : Obligations.EncoderOperationFrame := by
  unfold Obligations.EncoderOperationFrame
  intro s t b
  constructor
  · intro h
    obtain ht | rfl := exec_next_effect h
    · simp only [effectOf, eBitEffect_eq] at ht
      split at ht <;> subst ht
      · rename_i hm
        refine ⟨rfl, rfl, rfl, rfl, rfl, rfl, rfl, rfl, rfl, rfl, rfl, rfl, rfl, List.prefix_append _ _, fun hb hc => ?_⟩
        exact absurd (hm.symm.trans ((mustEmit_eq_false_iff b s.enc).2 ⟨hb, hc⟩)) (by decide)
      · exact ⟨rfl, rfl, rfl, rfl, rfl, rfl, rfl, rfl, rfl, rfl, rfl, rfl, rfl, List.prefix_rfl, fun _ _ => ⟨rfl, rfl⟩⟩
    · exact ⟨rfl, rfl, rfl, rfl, rfl, rfl, rfl, rfl, rfl, rfl, rfl, rfl, rfl, List.prefix_rfl, fun _ _ => ⟨rfl, rfl⟩⟩
  · intro h
    obtain ht | rfl := exec_next_effect h
    · simp only [effectOf, eEndEffect_eq] at ht
      subst ht
      exact ⟨rfl, rfl, rfl, rfl, rfl, rfl, rfl, rfl, rfl, rfl, (List.prefix_append _ _).trans (List.prefix_append _ _)⟩
    · exact ⟨rfl, rfl, rfl, rfl, rfl, rfl, rfl, rfl, rfl, rfl, List.prefix_rfl⟩

/-- Settles O25: from the state that D.CONT, D.RUN or D.END leaves; what is written is appended, the padding of D.END included. -/
theorem decoderOperationFrame : Obligations.DecoderOperationFrame := by
  unfold Obligations.DecoderOperationFrame
  intro s t c
  refine ⟨?_, ?_, ?_, fun h => ?_, fun h => ?_⟩
  · rintro (h | h | h) <;> obtain rfl | rfl := exec_next_effect h
    case inl.inl | inr.inl.inl | inr.inr.inl =>
      exact ⟨rfl, rfl, rfl, rfl, rfl, rfl, rfl, rfl, rfl, rfl, rfl, rfl, List.prefix_append _ _⟩
    all_goals exact ⟨rfl, rfl, rfl, rfl, rfl, rfl, rfl, rfl, rfl, rfl, rfl, rfl, List.prefix_rfl⟩
  · rintro (h | h) <;> obtain rfl | rfl := exec_next_effect h <;> exact ⟨rfl, rfl, rfl⟩
  · rintro (h | h) <;> obtain rfl | rfl := exec_next_effect h <;> rfl
  · obtain rfl | rfl := exec_next_effect h
    · exact snkRepeatBit_zero s.dec.bit s.decSnk
    · rfl
  · obtain rfl | rfl := exec_next_effect h <;> exact ⟨rfl, rfl⟩

/-! ### After the end of the run -/

theorem select_of_encDone {s : State} (hrun : s.running = .enc) (hp : s.enc.phase = .done) :
    select s = .ended .encDone := by
  simp [select, hrun, selectEnc, hp]

theorem select_of_decDone {s : State} (hrun : s.running = .dec) (hp : s.dec.phase = .done) :
    select s = .ended .decDone := by
  simp [select, hrun, selectDec, hp]

theorem select_of_decFault {s : State} (hrun : s.running = .dec) (hp : s.dec.phase = .fault) :
    select s = .ended .decFault := by
  simp [select, hrun, selectDec, hp]

/-- Settles O16: the phase alone selects the stop. -/
theorem endedBlockTakesNoStep : Obligations.EndedBlockTakesNoStep := by
  unfold Obligations.EndedBlockTakesNoStep
  intro s hn
  rw [step_of_block hn]
  exact ⟨fun hrun hp => blockTurn_of_ended (select_of_encDone hrun hp),
    fun hrun hp => blockTurn_of_ended (select_of_decDone hrun hp),
    fun hrun hp => blockTurn_of_ended (select_of_decFault hrun hp)⟩

end Sys2Proof.Machine
end

section
/-! SUPPORT. DEC's run over whole records, state by state, and its output at the end (R35, R69 to R71, R74). -/

namespace Sys2Proof.Safety

open Sys2Proof.Machine

/-! ### One record -/

/-- What a record does to DEC, D.CONT and D.RUN in one equation (R69, R70). -/
theorem effectOf_decodeRecord (c : Record) (s : State) :
    effectOf (decodeRecord c) s =
      { s with
        dec := { s.dec with bit := if c = 255#8 then s.dec.bit else !s.dec.bit, chain := decide (c = 255#8) }
        decSnk := { s.decSnk with written := s.decSnk.written ++ List.replicate c.toNat s.dec.bit } } := by
  by_cases hc : c = 255#8
  · subst hc
    exact dContEffect_eq s
  · have hrun : decodeRecord c = .dRun c := if_neg hc
    simp only [hrun, effectOf, dRunEffect_eq, hc, if_false, decide_false]

/-- The machine after DEC, launched on `records` and then `tail`, has executed `records`: its registers and its sink hold the closed
forms (R74). -/
def recordsDone (s : State) (records : List Record) (tail : List Bit) : State :=
  { s with
    running := .dec
    dec := ⟨impliedBit records, decide (records.getLast? = some 255#8), .active, .none, 0⟩
    decSrc := ⟨unpackBytes s.bitOrder records ++ tail, 8 * records.length, false, false⟩
    decSnk := ⟨decodedBits records, false, none, false⟩ }

theorem launch_eq_recordsDone (s : State) (input : List Bit) : launch .dec input s = recordsDone s [] input := rfl

theorem remaining_recordsDone (s : State) (records : List Record) (tail : List Bit) :
    remaining (recordsDone s records tail).decSrc = tail :=
  List.drop_left' (unpackBytes_length s.bitOrder records)

theorem nextRecord_recordsDone (s : State) (records : List Record) (c : Record) (tail : List Bit) :
    nextRecord (recordsDone s records (bitsOfRecord s.bitOrder c ++ tail)) = c := by
  rw [nextRecord, remaining_recordsDone, List.take_left' (bitsOfRecord_length s.bitOrder c)]
  exact recordOfBits_bitsOfRecord s.bitOrder c

theorem select_recordsDone (s : State) (records : List Record) (c : Record) (tail : List Bit) :
    select (recordsDone s records (bitsOfRecord s.bitOrder c ++ tail)) =
      .run (decodeRecord c) (afterRecord (recordsDone s records (bitsOfRecord s.bitOrder c ++ tail))) := by
  rw [select_record rfl rfl rfl (by simp [remaining_recordsDone]), nextRecord_recordsDone]
  exact gate_of_accepting rfl

/-- Consuming and executing a record grows the closed forms by it. -/
theorem effectOf_record_recordsDone (s : State) (records : List Record) (c : Record) (tail : List Bit) :
    effectOf (decodeRecord c) (afterRecord (recordsDone s records (bitsOfRecord s.bitOrder c ++ tail))) =
      recordsDone s (records ++ [c]) tail := by
  rw [effectOf_decodeRecord]
  simp [recordsDone, afterRecord, State.setDecSrc, impliedBit_snoc, decodedBits_snoc, unpackBytes_append, unpackBytes_cons,
    Nat.mul_add]

/-- DEC executes the next record in one step. -/
theorem step_recordsDone {s : State} (hsch : s.schedule = []) (records : List Record) (c : Record) (tail : List Bit) :
    step (recordsDone s records (bitsOfRecord s.bitOrder c ++ tail)) = .next (recordsDone s (records ++ [c]) tail) := by
  rw [step_of_run (by exact hsch) (select_recordsDone s records c tail), effectOf_record_recordsDone]

/-- DEC executes whole records in one step each, whatever follows them (R73, R78). -/
theorem runSteps_records {s : State} (hsch : s.schedule = []) (records : List Record) (tail : List Bit) :
    runSteps records.length (launch .dec (unpackBytes s.bitOrder records ++ tail) s) = .next (recordsDone s records tail) := by
  induction records using List.reverseRecOn generalizing tail with
  | nil => rw [launch_eq_recordsDone]; rfl
  | append_singleton records c ih =>
    have hinput : unpackBytes s.bitOrder (records ++ [c]) ++ tail =
        unpackBytes s.bitOrder records ++ (bitsOfRecord s.bitOrder c ++ tail) := by
      simp [unpackBytes_append, unpackBytes_cons]
    rw [hinput, List.length_append]
    exact runSteps_snoc (ih _) (step_recordsDone hsch records c tail)

/-! ### The end of the source -/

/-- At the end of whole records, outside a chain, DEC closes its sink and is DONE (R71). -/
theorem step_recordsDone_end {s : State} (hsch : s.schedule = []) {records : List Record}
    (hlast : records.getLast? ≠ some 255#8) :
    step (recordsDone s records []) = .next (dEndEffect (recordsDone s records [])) := by
  have hchain : (recordsDone s records []).dec.chain = false := decide_eq_false hlast
  refine step_of_run (i := .dEnd) hsch ?_
  rw [select_decEnd rfl rfl rfl (remaining_recordsDone ..) hchain]
  exact gate_of_accepting rfl

theorem decodedBits_length (records : List Record) : (decodedBits records).length = (records.map BitVec.toNat).sum := by
  induction records using List.reverseRecOn with
  | nil => rfl
  | append_singleton records c ih => simp [decodedBits_snoc, ih]

/-- Settles O47: one step for each record, and D.END, which pads and delivers what the records gave. -/
theorem decoderRunOutput : Obligations.DecoderRunOutput := by
  unfold Obligations.DecoderRunOutput
  intro s records hsch hlast
  have hrecords := runSteps_records hsch records []
  rw [List.append_nil] at hrecords
  exact ⟨_, runSteps_snoc hrecords (step_recordsDone_end hsch hlast), rfl, rfl, rfl, decodedBits_length records, rfl⟩

end Sys2Proof.Safety
end

section
/-! SUPPORT. The stream primitives bit by bit: what SrcReadUint reads, what SnkWriteUint writes, and what SnkClose pads and delivers
(R31, R34 to R37). -/

namespace Sys2Proof.Safety

open Sys2Proof.Machine

/-! ### Values and their bits -/

theorem natOfBits_eq_sum (bits : List Bit) :
    natOfBits bits = ∑ i ∈ Finset.range bits.length, (bits.getD i false).toNat * 2 ^ i := by
  induction bits with
  | nil => rfl
  | cons b bs ih =>
    rw [natOfBits, ih, List.length_cons, Finset.sum_range_succ', Finset.mul_sum, add_comm]
    congr 1
    · refine Finset.sum_congr rfl fun i _ => ?_
      rw [List.getD_cons_succ, pow_succ]
      ring
    · simp

/-- The value of stream bits is the sum of the bits with their weights in BIT_ORDER (R31). -/
theorem uintOfBits_eq_sum (o : BitOrder) (bits : List Bit) :
    uintOfBits o bits =
      ∑ i ∈ Finset.range bits.length, (bits.getD i false).toNat * 2 ^ valueBit o bits.length i := by
  rw [uintOfBits, natOfBits_eq_sum, inOrder_length]
  cases o with
  | lsbFirst => rfl
  | msbFirst =>
    rw [← Finset.sum_range_reflect]
    refine Finset.sum_congr rfl fun i hi => ?_
    have hlt : i < bits.length := Finset.mem_range.1 hi
    have hbit : bits.reverse.getD (bits.length - 1 - i) false = bits.getD i false := by
      rw [List.getD_reverse _ (by omega)]
      congr 1
      omega
    rw [inOrder, hbit, valueBit]

theorem bitsOfNat_eq_map (w v : Nat) : bitsOfNat w v = (List.range w).map v.testBit := by
  induction w generalizing v with
  | zero => rfl
  | succ w ih =>
    rw [bitsOfNat, ih, List.range_succ_eq_map, List.map_cons, List.map_map]
    congr 1
    refine List.map_congr_left fun i _ => ?_
    exact (Nat.testBit_succ v i).symm

/-- SnkWriteUint writes the bits of the value from the most significant down, or with LSB_FIRST from the least up (R34). -/
theorem bitsOfUint_eq_map (o : BitOrder) (v w : Nat) :
    bitsOfUint o v w = (List.range w).map fun i => v.testBit (valueBit o w i) := by
  rw [bitsOfUint, bitsOfNat_eq_map]
  cases o with
  | lsbFirst => rfl
  | msbFirst =>
    rw [inOrder, ← List.map_reverse, List.range_eq_range', List.reverse_range', List.map_map, ← List.range_eq_range']
    refine List.map_congr_left fun i _ => ?_
    simp [valueBit]

/-! ### Reading -/

theorem drop_getD (bits : List Bit) (n i : Nat) : (bits.drop n).getD i false = bits.getD (n + i) false := by
  simp [List.getD_eq_getElem?_getD]

theorem take_getD {bits : List Bit} {w i : Nat} (h : i < w) : (bits.take w).getD i false = bits.getD i false := by
  simp [List.getD_eq_getElem?_getD, h]

/-- SrcReadUint when enough bits are left. -/
theorem srcReadUint_of_le {w : Nat} {x : Source} (o : BitOrder) (hne : remaining x ≠ []) (h : w ≤ (remaining x).length) :
    srcReadUint o w x = .ok (uintOfBits o ((remaining x).take w), { x with pos := x.pos + w }) := by
  rcases srcReadUint_cases o w x with ⟨hr, _⟩ | ⟨_, hl, _⟩ | ⟨_, _, hread⟩
  · exact absurd hr hne
  · omega
  · exact hread

/-- Settles O4: the three outcomes of `srcReadUint_cases`; the value is `uintOfBits_eq_sum` of the w bits after the cursor. -/
theorem srcReadUintSumsWeightedBits : Obligations.SrcReadUintSumsWeightedBits := by
  unfold Obligations.SrcReadUintSumsWeightedBits
  intro o w x hpos
  have hempty : x.pos = x.bits.length ↔ remaining x = [] := by
    rw [← List.length_eq_zero_iff, remaining_length]
    omega
  rw [← remaining_length]
  rcases srcReadUint_cases o w x with ⟨hr, hread⟩ | ⟨hr, hl, hread⟩ | ⟨hr, hl, hread⟩
  · rwa [if_pos (hempty.2 hr)]
  · rwa [if_neg (mt hempty.1 hr), if_pos hl]
  · have hlen : ((remaining x).take w).length = w := List.length_take_of_le hl
    have hlt : uintOfBits o ((remaining x).take w) < 2 ^ w := by simpa only [hlen] using uintOfBits_lt o ((remaining x).take w)
    rw [if_neg (mt hempty.1 hr), if_neg (Nat.not_lt.2 hl)]
    refine ⟨_, hread, Nat.le_sub_one_of_lt hlt, ?_⟩
    rw [uintOfBits_eq_sum, hlen]
    refine Finset.sum_congr rfl fun i hi => ?_
    rw [take_getD (Finset.mem_range.1 hi), remaining, drop_getD]

/-! ### Writing -/

/-- Settles O5: the bits are `bitsOfUint_eq_map`, and reading them gives the value modulo `2^w`, which is the value. -/
theorem snkWriteUintAppendsAndReadsBack : Obligations.SnkWriteUintAppendsAndReadsBack := by
  unfold Obligations.SnkWriteUintAppendsAndReadsBack
  intro o v w k hv
  refine ⟨?_, fun x rest hw hrem => ?_⟩
  · rw [snkWriteUint, bitsOfUint_eq_map]
    rfl
  · have hlen : w ≤ (remaining x).length := by simp [hrem]
    have hne : remaining x ≠ [] := List.ne_nil_of_length_pos (by omega)
    have hlt : v < 2 ^ w := Nat.lt_of_le_sub_one (Nat.two_pow_pos w) hv
    rw [srcReadUint_of_le o hne hlen, hrem, List.take_left' (bitsOfUint_length o v w), uintOfBits_bitsOfUint,
      Nat.mod_eq_of_lt hlt]

/-! ### Closing and delivering -/

/-- Fewer than eight bits make no byte. -/
theorem packBytes_of_lt (o : BitOrder) {bits : List Bit} (h : bits.length < 8) : packBytes o bits = [] := by
  unfold packBytes
  split
  · simp only [List.length_cons] at h
    omega
  · rfl

/-- The first eight bits make the first byte. -/
theorem packBytes_of_le (o : BitOrder) {bits : List Bit} (h : 8 ≤ bits.length) :
    packBytes o bits = recordOfBits o (bits.take 8) :: packBytes o (bits.drop 8) := by
  rw [← packBytes_append_of_eight o _ _ (List.length_take_of_le h), List.take_append_drop]

theorem packBytes_length (o : BitOrder) (bits : List Bit) : (packBytes o bits).length = bits.length / 8 := by
  induction hn : bits.length / 8 generalizing bits with
  | zero => rw [packBytes_of_lt o (by omega), List.length_nil]
  | succ n ih =>
    have hrest : (bits.drop 8).length / 8 = n := by
      rw [List.length_drop]
      omega
    rw [packBytes_of_le o (by omega), List.length_cons, ih _ hrest]

/-- Settles O6: the padding completes the last byte, and packing makes one byte of each eight bits. -/
theorem snkClosePadsToWholeBytes : Obligations.SnkClosePadsToWholeBytes := by
  unfold Obligations.SnkClosePadsToWholeBytes
  intro o k
  refine ⟨rfl, snkClose_written_whole o k, rfl, fun hwhole => ?_, _, snkClose_delivered o k, packBytes_length o _⟩
  simp [padLength_eq_zero hwhole]

/-- Bit j of a record is the j-th of its eight stream bits, in BIT_ORDER (R37, R50). -/
theorem recordOfBits_getLsbD (o : BitOrder) {bits : List Bit} (h : bits.length = 8) {j : Nat} (hj : j < 8) :
    (recordOfBits o bits).getLsbD (valueBit o 8 j) = bits.getD j false := by
  have hbits := bitsOfRecord_recordOfBits o bits h
  rw [bitsOfRecord, bitsOfUint_eq_map] at hbits
  conv_rhs => rw [← hbits]
  simp [List.getD_eq_getElem?_getD, hj, BitVec.getLsbD]

/-- Bit j of byte n is bit `8n + j` of the stream, in BIT_ORDER (R36, R37). -/
theorem packBytes_getLsbD (o : BitOrder) (bits : List Bit) {n j : Nat} (hn : n < (packBytes o bits).length) (hj : j < 8) :
    ((packBytes o bits).getD n 0).getLsbD (valueBit o 8 j) = bits.getD (8 * n + j) false := by
  induction n generalizing bits with
  | zero =>
    rw [packBytes_length] at hn
    have h8 : 8 ≤ bits.length := by omega
    rw [packBytes_of_le o h8, List.getD_cons_zero, recordOfBits_getLsbD o (List.length_take_of_le h8) hj, take_getD hj,
      Nat.mul_zero, Nat.zero_add]
  | succ n ih =>
    have h8 : 8 ≤ bits.length := by
      rw [packBytes_length] at hn
      omega
    rw [packBytes_of_le o h8] at hn ⊢
    rw [List.getD_cons_succ, ih _ (Nat.lt_of_succ_lt_succ hn), drop_getD]
    congr 1
    omega

/-- Settles O7: what is delivered is `packBytes` of the padded bits. -/
theorem deliveredBytesHoldTheWrittenBits : Obligations.DeliveredBytesHoldTheWrittenBits := by
  unfold Obligations.DeliveredBytesHoldTheWrittenBits
  intro o k
  exact ⟨_, snkClose_delivered o k, packBytes_length o _, fun n j hn hj => packBytes_getLsbD o _ hn hj⟩

end Sys2Proof.Safety
end

section
/-! SUPPORT. What the decoder makes of the bits left in a source (R39, R49 to R55), the holds of a block (R86), and what a turn does to
the streams (R27, R43, R47) and to BIT_ORDER (R37). -/

namespace Sys2Proof.Machine

/-- All that the decoder can answer for DEC (R52, R54). -/
theorem decode_dec_cases (o : BitOrder) (bits : List Bit) :
    (bits = [] ∧ decode o .dec bits = .ok (.dEnd, [])) ∨
    (bits ≠ [] ∧ bits.length < 8 ∧ decode o .dec bits = .error .partialRecord) ∨
    (8 ≤ bits.length ∧ decode o .dec bits = .ok (decodeRecord (recordOfBits o (bits.take 8)), bits.drop 8)) := by
  cases bits with
  | nil => exact .inl ⟨rfl, rfl⟩
  | cons b bs =>
    by_cases hl : (b :: bs).length < 8
    · exact .inr (.inl ⟨List.cons_ne_nil b bs, hl, if_pos hl⟩)
    · exact .inr (.inr ⟨Nat.le_of_not_lt hl, if_neg hl⟩)

/-- ENC's decoder never rejects (R49, R52). -/
theorem decode_enc_ne_error (o : BitOrder) (bits : List Bit) (r : Reject) : decode o .enc bits ≠ .error r := by
  cases bits <;> nofun

/-- Settles O11: of the answers for DEC, only that to 1 to 7 bits is a rejection, and ENC's decoder never rejects. -/
theorem onlyPartialRecordsAreRejected : Obligations.OnlyPartialRecordsAreRejected := by
  unfold Obligations.OnlyPartialRecordsAreRejected
  intro o blk bits
  cases blk with
  | enc => simp [decode_enc_ne_error]
  | dec =>
    rcases decode_dec_cases o bits with ⟨rfl, h⟩ | ⟨hne, hl, h⟩ | ⟨hl, h⟩ <;> rw [h]
    · simp
    · simp [List.length_pos_iff, hne, hl]
    · simp [hl]

/-- DEC writes for every record but 0 (R69, R70). -/
theorem writesSink_decodeRecord (c : Record) (s : State) : writesSink (decodeRecord c) s = true ↔ c ≠ 0#8 := by
  unfold decodeRecord
  split
  · rename_i hc
    subst hc
    exact iff_of_true rfl (by decide)
  · simp [writesSink]

/-- An ACTIVE block that has read an operation which writes or closes holds while its sink cannot accept (R86; log 6). -/
theorem select_of_stalledSink {s : State} {i : Instr} {rest : List Bit} (ha : s.isActive = true) (hk : s.snk.stalled = true)
    (hd : decode s.bitOrder s.running (remaining s.src) = .ok (i, rest)) (hend : i = .dEnd → s.dec.chain = false)
    (hw : writesSink i s = true) : select s = .hold := by
  cases hrun : s.running with
  | enc =>
    rw [hrun, State.src_enc hrun] at hd
    rw [State.snk_enc hrun] at hk
    refine (select_hold_enc hrun).2 ⟨by simpa [State.isActive, hrun] using ha, .inr ⟨hk, fun b hb => ?_⟩⟩
    obtain ⟨bits, hr⟩ := List.head?_eq_some_iff.1 hb
    rw [hr] at hd
    cases hd
    exact hw
  | dec =>
    rw [hrun, State.src_dec hrun] at hd
    rw [State.snk_dec hrun] at hk
    refine (select_hold_dec hrun).2 ⟨by simpa [State.isActive, hrun] using ha, .inr ⟨hk, ?_⟩⟩
    rcases decode_dec_cases s.bitOrder (remaining s.decSrc) with ⟨hr, h⟩ | ⟨_, _, h⟩ | ⟨hl, h⟩ <;> rw [h] at hd <;>
      cases hd
    · exact .inl ⟨hr, hend rfl⟩
    · exact .inr ⟨hl, (writesSink_decodeRecord _ s).1 hw⟩

theorem writesSink_popTurn (i : Instr) (s : State) : writesSink i (popTurn s) = writesSink i s := by
  cases i <;> rfl

/-- Settles O17: in both cases the selection is a hold, and a turn in which the block holds leaves the state. -/
theorem holdChangesNothing : Obligations.HoldChangesNothing := by
  unfold Obligations.HoldChangesNothing
  intro s hn ha
  rw [step_of_block hn]
  constructor
  · exact fun hsrc => blockTurn_of_hold (select_of_stalledSource (s := popTurn s) ha hsrc)
  · exact fun _ hsnk i rest hd hend hw =>
      blockTurn_of_hold (select_of_stalledSink (s := popTurn s) ha hsnk hd hend (writesSink_popTurn i s ▸ hw))

/-! ### The streams in a block's turn -/

/-- Both inputs stay, neither cursor moves back, and both sinks are only appended to (R27, R43, R47). -/
def StreamsAdvance (s t : State) : Prop :=
  t.encSrc.bits = s.encSrc.bits ∧ t.decSrc.bits = s.decSrc.bits ∧
  s.encSrc.pos ≤ t.encSrc.pos ∧ s.decSrc.pos ≤ t.decSrc.pos ∧
  s.encSnk.written <+: t.encSnk.written ∧ s.decSnk.written <+: t.decSnk.written

theorem StreamsAdvance.of_eq {s t : State} (hencSrc : t.encSrc = s.encSrc) (hdecSrc : t.decSrc = s.decSrc)
    (hencSnk : t.encSnk = s.encSnk) (hdecSnk : t.decSnk = s.decSnk) : StreamsAdvance s t := by
  unfold StreamsAdvance
  rw [hencSrc, hdecSrc, hencSnk, hdecSnk]
  exact ⟨rfl, rfl, le_rfl, le_rfl, List.prefix_rfl, List.prefix_rfl⟩

/-- Each operation consumes its item and appends what it writes, the padding of a close included. -/
theorem OperationOf.streamsAdvance {s t : State} (h : OperationOf s t) : StreamsAdvance s t := by
  cases h with
  | eBit b =>
    rw [eBitEffect_eq]
    split
    · exact ⟨rfl, rfl, Nat.le_succ _, le_rfl, List.prefix_append _ _, List.prefix_rfl⟩
    · exact ⟨rfl, rfl, Nat.le_succ _, le_rfl, List.prefix_rfl, List.prefix_rfl⟩
  | eEnd =>
    rw [eEndEffect_eq]
    exact ⟨rfl, rfl, le_rfl, le_rfl, (List.prefix_append _ _).trans (List.prefix_append _ _), List.prefix_rfl⟩
  | dCont | dRun => exact ⟨rfl, rfl, le_rfl, Nat.le_add_right _ 8, List.prefix_rfl, List.prefix_append _ _⟩
  | dEnd => exact ⟨rfl, rfl, le_rfl, le_rfl, List.prefix_rfl, List.prefix_append _ _⟩

theorem FaultOf.streamsAdvance {s t : State} (h : FaultOf s t) : StreamsAdvance s t := by
  cases h <;> exact .of_eq rfl rfl rfl rfl

/-- Settles O34: an operation advances the streams, and a fault or a hold leaves them. -/
theorem streamsAreReadAndWrittenInOrder : Obligations.StreamsAreReadAndWrittenInOrder := by
  unfold Obligations.StreamsAreReadAndWrittenInOrder
  intro s t hn h
  rw [step_of_block hn] at h
  obtain hop | hfault | rfl := blockTurn_next h
  · exact hop.streamsAdvance (s := popTurn s)
  · exact hfault.streamsAdvance (s := popTurn s)
  · exact StreamsAdvance.of_eq (s := popTurn s) rfl rfl rfl rfl

/-- Settles O35: no effect, no fault and no change by the host writes BIT_ORDER (`step_bitOrder_eq`). -/
theorem bitOrderNeverChanges : Obligations.BitOrderNeverChanges := by
  unfold Obligations.BitOrderNeverChanges
  exact fun s t h => step_bitOrder_eq h

end Sys2Proof.Machine
end

section
/-! SUPPORT. Input items and operations as each other's inverse (R49 to R54), and the operation map: which operation or fault a
turn of the block runs (R53, R55, R60, R68, R81). -/

namespace Sys2Proof.Machine

/-! ### Items and operations -/

/-- A well-formed D.RUN is the operation of its record (R54). -/
theorem decodeRecord_of_wf {c : Record} (h : (Instr.dRun c).wf = true) : decodeRecord c = .dRun c :=
  if_neg (by simpa [Instr.wf] using h)

/-- No record stands for a D.RUN of 255 (R54, R70). -/
theorem decodeRecord_wf (c : Record) : (decodeRecord c).wf = true := by
  unfold decodeRecord
  split
  · rfl
  · simpa [Instr.wf]

theorem encode_decodeRecord (o : BitOrder) (c : Record) : encode o (decodeRecord c) = bitsOfRecord o c := by
  unfold decodeRecord
  split
  · rename_i hc
    rw [hc, encode]
  · rfl

theorem encode_length (o : BitOrder) (i : Instr) : (encode o i).length = i.width := by
  cases i with
  | eBit b => exact Laws.EncodeWidth.eBit b o
  | eEnd => exact Laws.EncodeWidth.eEnd o
  | dCont => exact Laws.EncodeWidth.dCont o
  | dRun c => exact Laws.EncodeWidth.dRun c o
  | dEnd => exact Laws.EncodeWidth.dEnd o

/-- DEC's decoder reads a record from the record's own bits, whatever comes after them (R50, R51, R54). -/
theorem decode_bitsOfRecord_append (o : BitOrder) (c : Record) (rest : List Bit) :
    decode o .dec (bitsOfRecord o c ++ rest) = .ok (decodeRecord c, rest) := by
  have hlen : 8 ≤ (bitsOfRecord o c ++ rest).length := by simp
  obtain ⟨hnil, -⟩ | ⟨-, hshort, -⟩ | ⟨-, hread⟩ := decode_dec_cases o (bitsOfRecord o c ++ rest)
  · simp [hnil] at hlen
  · omega
  · rw [hread, List.take_left' (bitsOfRecord_length o c), List.drop_left' (bitsOfRecord_length o c),
      recordOfBits_bitsOfRecord]

/-- Settles O9: an item of ENC and the two ends by the decoder's equations, a record by `decode_bitsOfRecord_append`. -/
theorem decodeInvertsEncode : Obligations.DecodeInvertsEncode := by
  unfold Obligations.DecodeInvertsEncode
  intro o i rest hwf hend
  cases i with
  | eBit b => rfl
  | eEnd | dEnd =>
    rw [hend rfl]
    rfl
  | dCont => exact decode_bitsOfRecord_append o contValue rest
  | dRun c => exact (decode_bitsOfRecord_append o c rest).trans (by rw [decodeRecord_of_wf hwf])

/-- Settles O10: by the bits the decoder was given; a record that was read writes the bits it was read from. -/
theorem decodeReadsExactlyTheItem : Obligations.DecodeReadsExactlyTheItem := by
  unfold Obligations.DecodeReadsExactlyTheItem
  intro o blk bits rest i h
  cases blk with
  | enc =>
    cases bits with
    | nil =>
      cases h
      exact ⟨rfl, rfl, rfl, rfl⟩
    | cons b bits =>
      cases h
      exact ⟨rfl, rfl, rfl, rfl⟩
  | dec =>
    obtain ⟨rfl, hread⟩ | ⟨-, -, hread⟩ | ⟨hlen, hread⟩ := decode_dec_cases o bits <;> rw [hread] at h <;> cases h
    · exact ⟨rfl, rfl, rfl, rfl⟩
    · refine ⟨decodeRecord_wf _, decodeRecord_block _, ?_, encode_length o _⟩
      rw [encode_decodeRecord, bitsOfRecord_recordOfBits o _ (List.length_take_of_le hlen), List.take_append_drop]

/-- Settles O12: the decoder evaluates on each of the items. -/
theorem knownItemsDecode : Obligations.KnownItemsDecode := by
  unfold Obligations.KnownItemsDecode
  exact ⟨rfl, rfl, rfl, rfl, rfl, rfl, rfl⟩

/-! ### The operation map -/

/-- A block whose sink accepts runs, in its turn, the operation it has read (R60, R68). -/
theorem step_of_gate {s u : State} {i : Instr} (hn : nextTurn s = .block) (hsel : select (popTurn s) = gate i u)
    (hsnk : u.snk.stalled = false) : step s = exec i (popTurn s) := by
  rw [gate_of_ready fun _ => hsnk] at hsel
  rw [step_of_block hn, blockTurn_of_run hsel]

/-- Settles O14: each row is one case of the selection, whose operation runs because the sink accepts. -/
theorem operationMapSelectsEachRow : Obligations.OperationMapSelectsEachRow := by
  unfold Obligations.OperationMapSelectsEachRow
  intro s c hn hsnk hc
  have hrec : nextRecord (popTurn s) = c := hc.symm
  refine ⟨?eBit, ?eEnd, ?dCont, ?dRun, ?dEnd, ?exhausted, ?short⟩
  case eBit =>
    rintro ⟨hrun, hp, hst⟩ hne
    obtain ⟨b, rest, hr⟩ := List.exists_cons_of_ne_nil hne
    have hsel := select_bit (s := popTurn s) hrun hp hst hr
    refine ⟨b, step_of_gate hn hsel hsnk, ?_⟩
    have hhead : (remaining s.encSrc)[0]? = some b := by rw [hr]; rfl
    simpa [remaining] using hhead
  case eEnd =>
    rintro ⟨hrun, hp, hst⟩ hr
    exact step_of_gate hn (select_encEnd (s := popTurn s) hrun hp hst hr) hsnk
  case dCont =>
    rintro ⟨hrun, hp, hst⟩ hl hcont
    have hsel := select_record (s := popTurn s) hrun hp hst hl
    rw [hrec, decodeRecord, if_pos hcont] at hsel
    exact step_of_gate hn hsel hsnk
  case dRun =>
    rintro ⟨hrun, hp, hst⟩ hl hfinal
    have hsel := select_record (s := popTurn s) hrun hp hst hl
    rw [hrec, decodeRecord, if_neg hfinal] at hsel
    exact step_of_gate hn hsel hsnk
  case dEnd =>
    rintro ⟨hrun, hp, hst⟩ hr hchain
    exact step_of_gate hn (select_decEnd (s := popTurn s) hrun hp hst hr hchain) hsnk
  case exhausted =>
    rintro ⟨hrun, hp, hst⟩ hr hchain
    rw [step_of_block hn]
    exact blockTurn_of_raise (select_exhausted (s := popTurn s) hrun hp hst hr hchain)
  case short =>
    rintro ⟨hrun, hp, hst⟩ hpos hl
    rw [step_of_block hn]
    exact blockTurn_of_raise (select_short (s := popTurn s) hrun hp hst (List.ne_nil_of_length_pos hpos) hl)

/-- The run of an ACTIVE block has not ended (R18, R21). -/
theorem select_ne_ended {s : State} (ha : s.isActive = true) (why : Fault) : select s ≠ .ended why := by
  intro h
  obtain ⟨hrun, hp, -⟩ | ⟨hrun, hp, -⟩ | ⟨hrun, hp, -⟩ := select_ended_cases h <;>
    simp [State.isActive, hrun, hp] at ha

/-- Settles O15: of the four selections only the end of a run gives no next state, and then the block is not ACTIVE. -/
theorem activeBlockNeverStops : Obligations.ActiveBlockNeverStops := by
  unfold Obligations.ActiveBlockNeverStops
  intro s hn ha
  rw [step_of_block hn]
  cases hsel : select (popTurn s) with
  | run i u => exact ⟨_, (blockTurn_of_run hsel).trans (exec_of_run hsel)⟩
  | raise cause pos => exact ⟨_, blockTurn_of_raise hsel⟩
  | hold => exact ⟨_, blockTurn_of_hold hsel⟩
  | ended why => exact absurd hsel (select_ne_ended (s := popTurn s) ha why)

/-! ### The decoded operation -/

/-- D.CONT and D.RUN consume one record each. -/
theorem afterItem_decodeRecord (c : Record) (s : State) : afterItem (decodeRecord c) s = afterRecord s := by
  unfold decodeRecord
  split <;> rfl

theorem remaining_advance (x : Source) (n : Nat) : remaining { x with pos := x.pos + n } = (remaining x).drop n :=
  (List.drop_drop ..).symm

/-- An ACTIVE block whose source answers selects the operation its decoder reads, up to its sink, and what is left to read is what
the decoder leaves (R60, R68). -/
theorem select_of_decode {s : State} {i : Instr} {rest : List Bit} (ha : s.isActive = true) (hst : s.src.stalled = false)
    (hd : decode s.bitOrder s.running (remaining s.src) = .ok (i, rest)) (hend : i = .dEnd → s.dec.chain = false) :
    select s = gate i (afterItem i s) ∧ remaining (afterItem i s).src = rest := by
  cases hrun : s.running with
  | enc =>
    rw [State.src_enc hrun] at hst hd
    have hp : s.enc.phase = .active := by simpa [State.isActive, hrun] using ha
    rw [hrun] at hd
    cases hr : remaining s.encSrc with
    | nil =>
      rw [hr] at hd
      cases hd
      exact ⟨select_encEnd hrun hp hst hr, (congrArg remaining (State.src_enc hrun)).trans hr⟩
    | cons b bits =>
      rw [hr] at hd
      cases hd
      have hsrc : (afterBit s).src = { s.encSrc with pos := s.encSrc.pos + 1 } := State.src_enc (s := afterBit s) hrun
      refine ⟨select_bit hrun hp hst hr, ?_⟩
      change remaining (afterBit s).src = rest
      rw [hsrc, remaining_advance, hr, List.drop_one, List.tail_cons]
  | dec =>
    rw [State.src_dec hrun] at hst hd
    have hp : s.dec.phase = .active := by simpa [State.isActive, hrun] using ha
    rw [hrun] at hd
    obtain ⟨hr, hread⟩ | ⟨-, -, hread⟩ | ⟨hl, hread⟩ := decode_dec_cases s.bitOrder (remaining s.decSrc) <;>
      rw [hread] at hd <;> cases hd
    · exact ⟨select_decEnd hrun hp hst hr (hend rfl), (congrArg remaining (State.src_dec hrun)).trans hr⟩
    · have hsrc : (afterRecord s).src = { s.decSrc with pos := s.decSrc.pos + 8 } := State.src_dec (s := afterRecord s) hrun
      rw [afterItem_decodeRecord, hsrc, remaining_advance]
      exact ⟨select_record hrun hp hst hl, rfl⟩

/-- No effect reads or ends the source: an operation has consumed its item before (R62, R63, R69 to R71). -/
theorem effectOf_src (i : Instr) (s : State) : (effectOf i s).src = s.src := by
  cases i with
  | eBit b =>
    rw [effectOf, eBitEffect_eq]
    split <;> rfl
  | eEnd =>
    rw [effectOf, eEndEffect_eq]
    rfl
  | dCont | dRun | dEnd => rfl

theorem afterItem_snk (i : Instr) (s : State) : (afterItem i s).snk = s.snk := by
  cases i <;> rfl

/-- Settles O13: the decoded operation is selected, completes because the sink accepts, and has consumed its item. -/
theorem stepRunsTheDecodedOperation : Obligations.StepRunsTheDecodedOperation := by
  unfold Obligations.StepRunsTheDecodedOperation
  intro s i rest hn ha hst hsnk hd hend
  obtain ⟨hsel, hrest⟩ := select_of_decode (s := popTurn s) ha hst hd hend
  have hready : (afterItem i (popTurn s)).snk.stalled = false := by rw [afterItem_snk]; exact hsnk
  refine ⟨step_of_gate hn hsel hready, _, exec_of_run (hsel.trans (gate_of_ready fun _ => hready)), ?_⟩
  rw [effectOf_src, hrest]

end Sys2Proof.Machine
end

section
/-! SUPPORT. What E.BIT and E.END do where the state of ENC selects them (R60, R62, R63, R82), and what a step does to `count`
(R64 (a)). -/

namespace Sys2Proof.Safety

open Sys2Proof.Machine

/-! ### The operations of a ready ENC -/

/-- ENC with a bit to read runs E.BIT, if its sink accepts what the bit may emit (R60, R86). -/
theorem select_eBit_of_ready {s : State} {b : Bit} {rest : List Bit} (h : EncReady s) (hr : remaining s.encSrc = b :: rest)
    (hsnk : mustEmit b s.enc = true → s.encSnk.stalled = false) : select s = .run (.eBit b) (afterBit s) := by
  obtain ⟨hrun, hp, hst⟩ := h
  rw [select_bit hrun hp hst hr]
  refine gate_of_ready fun hw => ?_
  rw [State.snk_enc (s := afterBit s) hrun]
  exact hsnk hw

/-- ENC at the end of its input runs E.END, if its sink accepts (R60, R86). -/
theorem select_eEnd_of_ready {s : State} (h : EncReady s) (hr : remaining s.encSrc = []) (hsnk : s.encSnk.stalled = false) :
    select s = .run .eEnd s := by
  obtain ⟨hrun, hp, hst⟩ := h
  rw [select_encEnd hrun hp hst hr]
  refine gate_of_ready fun _ => ?_
  rwa [State.snk_enc hrun]

/-- `count + 1` does not overflow below 255 (R65). -/
theorem count_succ_toNat {c : Record} (h : c ≠ 255#8) : (c + 1#8).toNat = c.toNat + 1 := by
  bv_omega

/-- The trigger of E.BIT as R62 writes it. -/
theorem mustEmit_iff_trigger (b : Bit) (r : EncRegs) :
    mustEmit b r = true ↔ b ≠ r.lastBit ∨ (r.count = 255#8 ∧ b = r.lastBit) := by
  rw [mustEmit_iff]
  tauto

/-- Settles O19: the operation is selected, because only an emitting bit needs the sink; its effect is `eBitEffect_eq`. -/
theorem eBitCompletes : Obligations.EBitCompletes := by
  unfold Obligations.EBitCompletes
  intro s b rest hready hr
  split
  · rename_i h
    have hm := (mustEmit_iff_trigger b s.enc).2 h
    intro hsnk
    rw [exec_of_run (select_eBit_of_ready hready hr fun _ => hsnk), effectOf, eBitEffect_eq]
    exact congrArg _ (if_pos hm)
  · rename_i h
    have hm := mt (mustEmit_iff_trigger b s.enc).1 h
    obtain ⟨-, hcount⟩ := (mustEmit_eq_false_iff b s.enc).1 (Bool.eq_false_iff.2 hm)
    rw [exec_of_run (select_eBit_of_ready hready hr fun h => absurd h hm), effectOf, eBitEffect_eq]
    exact ⟨congrArg _ (if_neg hm), count_succ_toNat hcount⟩

/-- Settles O20: the operation is selected, and its effect is `eEndEffect_eq`. -/
theorem eEndCompletes : Obligations.EEndCompletes := by
  unfold Obligations.EEndCompletes
  intro s hready hr hsnk
  rw [exec_of_run (select_eEnd_of_ready hready hr hsnk), effectOf, eEndEffect_eq]
  rfl

/-- Settles O28: an ACTIVE block has a next state, ENC's turn leaves DEC's side, and only DEC selects a fault. -/
theorem encoderNeverFaults : Obligations.EncoderNeverFaults := by
  unfold Obligations.EncoderNeverFaults
  intro s hn hrun hp
  obtain ⟨t, ht⟩ := activeBlockNeverStops s hn (by simp [State.isActive, hrun, hp])
  obtain ⟨hdec, -, -⟩ := step_keeps_decSide hn hrun ht
  refine ⟨t, ht, hdec, fun cause pos hsel => ?_⟩
  obtain ⟨hdecRuns, -⟩ := select_raise_cases hsel
  rw [hrun] at hdecRuns
  cases hdecRuns

/-! ### The count -/

/-- A bit that is only counted leaves a `count` above 0, because `count` was not 255 (R62, R65). -/
theorem count_succ_ne_zero {b : Bit} {r : EncRegs} (hm : mustEmit b r = false) : r.count + 1#8 ≠ 0#8 := by
  obtain ⟨-, hcount⟩ := (mustEmit_eq_false_iff b r).1 hm
  bv_omega

theorem eBitEffect_count_ne_zero (b : Bit) (s : State) : (eBitEffect b s).enc.count ≠ 0#8 := by
  rw [eBitEffect_eq]
  split
  · simp
  · rename_i hm
    exact count_succ_ne_zero (Bool.eq_false_iff.2 hm)

/-- Where ENC has consumed input and `count` is not 0, the count invariant holds. -/
theorem countOk_of_consumed {s : State} (hcount : s.enc.count ≠ 0#8) (hpos : s.encSrc.pos ≠ 0) : CountOk s :=
  ⟨iff_of_false hcount hpos, fun h => absurd h hcount⟩

theorem CountOk.of_encStep {s t : State} (hs : CountOk s) (h : EncStep s t) : CountOk t := by
  cases h with
  | kept henc hsrc =>
    obtain ⟨hpos, -⟩ := hsrc
    unfold CountOk
    rw [henc, hpos]
    exact hs
  | launched input henc hsrc =>
    unfold CountOk
    rw [henc, hsrc]
    exact ⟨iff_of_true rfl rfl, fun _ => rfl⟩
  | counted b rest hp hr hm henc hsrc =>
    exact countOk_of_consumed (by rw [henc]; exact count_succ_ne_zero hm) (by rw [hsrc]; exact Nat.succ_ne_zero _)
  | emitted b rest hp hr hm henc hsrc =>
    exact countOk_of_consumed (by simp [henc]) (by rw [hsrc]; exact Nat.succ_ne_zero _)
  | ended hp hr henc hsrc =>
    unfold CountOk
    rw [henc, hsrc]
    exact hs

/-- Settles O38: of the changes to ENC's side, a consumed bit leaves a `count` above 0, a launch starts afresh, and the others leave
`count`, `lastBit` and the cursor. -/
theorem stepKeepsTheCountInvariant : Obligations.StepKeepsTheCountInvariant := by
  unfold Obligations.StepKeepsTheCountInvariant
  intro s t hs h
  exact CountOk.of_encStep (s := popTurn s) hs (step_encStep h)

/-- Settles O39: the reset values, and an E.BIT that has an effect has counted its bit. -/
theorem countIsPositiveAfterEveryBit : Obligations.CountIsPositiveAfterEveryBit := by
  unfold Obligations.CountIsPositiveAfterEveryBit
  refine ⟨⟨iff_of_true rfl rfl, fun _ => rfl⟩, fun s t b h hne => ?_⟩
  obtain rfl | rfl := exec_next_effect h
  · have hcount : (effectOf (.eBit b) (afterItem (.eBit b) s)).enc.count ≠ 0#8 := eBitEffect_count_ne_zero b (afterBit s)
    bv_omega
  · exact absurd rfl hne

end Sys2Proof.Safety
end

section
/-! SUPPORT. ENC's run over its input, one step for each bit and E.END (R64, R66, R67), and the same run read literally (R61,
R65). -/

namespace Sys2Proof.Safety

open Sys2Proof.Machine

/-! ### An undisturbed ENC -/

/-- An invariant of the step is one of a run. -/
theorem runSteps_keeps {P : State → Prop} (hstep : ∀ s t, P s → step s = .next t → P t) {k : Nat} {s t : State}
    (h : runSteps k s = .next t) (hs : P s) : P t := by
  induction k generalizing s with
  | zero => cases h; exact hs
  | succ k ih =>
    cases hu : step s with
    | next u =>
      rw [runSteps_succ_of_next hu] at h
      exact ih h (hstep s u hs hu)
    | fault r => simp [runSteps, hu] at h
    | refused r => simp [runSteps, hu] at h

/-- ENC may take a step, and neither the host nor its sink stands in its way. -/
def EncFree (s : State) : Prop := EncReady s ∧ s.schedule = [] ∧ s.encSnk.stalled = false

theorem encFree_launch (input : List Bit) {s : State} (h : s.schedule = []) : EncFree (launch .enc input s) :=
  ⟨⟨rfl, rfl, rfl⟩, h, rfl⟩

theorem EncFree.active {s : State} (h : EncFree s) : s.enc.phase = .active := by
  obtain ⟨⟨-, hp, -⟩, -, -⟩ := h
  exact hp

/-- E.BIT leaves ENC free, and its sink open or closed as it was. -/
theorem EncFree.eBit {s : State} (h : EncFree s) (b : Bit) :
    EncFree (eBitEffect b (afterBit s)) ∧ (eBitEffect b (afterBit s)).bitOrder = s.bitOrder ∧
      (eBitEffect b (afterBit s)).encSrc = { s.encSrc with pos := s.encSrc.pos + 1 } ∧
      (eBitEffect b (afterBit s)).encSnk.closed = s.encSnk.closed := by
  rw [eBitEffect_eq]
  split <;> exact ⟨h, rfl, rfl, rfl⟩

theorem EncFree.step_eBit {s : State} {b : Bit} {rest : List Bit} (h : EncFree s) (hr : remaining s.encSrc = b :: rest) :
    step s = .next (eBitEffect b (afterBit s)) := by
  obtain ⟨hready, hsch, hsnk⟩ := h
  exact step_of_run hsch (select_eBit_of_ready hready hr fun _ => hsnk)

theorem EncFree.step_eEnd {s : State} (h : EncFree s) (hr : remaining s.encSrc = []) :
    step s = .next (eEndEffect s) := by
  obtain ⟨hready, hsch, hsnk⟩ := h
  exact step_of_run hsch (select_eEnd_of_ready hready hr hsnk)

/-- ENC consumes bits in one step each, whatever follows them, and closes nothing (R60, R67). -/
theorem EncFree.runSteps_bits {s : State} (h : EncFree s) {bits rest : List Bit} (hr : remaining s.encSrc = bits ++ rest) :
    ∃ u, runSteps bits.length s = .next u ∧ EncFree u ∧ u.bitOrder = s.bitOrder ∧
      u.encSrc = { s.encSrc with pos := s.encSrc.pos + bits.length } ∧ u.encSnk.closed = s.encSnk.closed := by
  induction bits generalizing s with
  | nil => exact ⟨s, rfl, h, rfl, rfl, rfl⟩
  | cons b bits ih =>
    obtain ⟨hfree, ho, hsrc, hclosed⟩ := h.eBit b
    have hr' : remaining (eBitEffect b (afterBit s)).encSrc = bits ++ rest := by
      rw [hsrc, remaining_advance, hr]
      rfl
    obtain ⟨u, hrun, hu, hou, hsrcu, hclosedu⟩ := ih hfree hr'
    refine ⟨u, ?_, hu, hou.trans ho, ?_, hclosedu.trans hclosed⟩
    · rw [List.length_cons, runSteps_succ_of_next (h.step_eBit hr), hrun]
    · rw [hsrcu, hsrc, List.length_cons, Nat.add_right_comm, Nat.add_assoc]

/-! ### From a launch to E.END -/

theorem encTracks_launch (input : List Bit) (s : State) : EncTracks (launch .enc input s) :=
  fun _ => ⟨fun _ => ⟨rfl, rfl, rfl⟩, fun h => absurd rfl h⟩

theorem countOk_launch (input : List Bit) (s : State) : CountOk (launch .enc input s) :=
  ⟨iff_of_true rfl rfl, fun _ => rfl⟩

/-- After a launch ENC consumes the first bits of its input in one step each. -/
theorem runSteps_launch_enc {s : State} (hsch : s.schedule = []) {input bits rest : List Bit} (hinput : input = bits ++ rest) :
    ∃ u, runSteps bits.length (launch .enc input s) = .next u ∧ EncFree u ∧ u.bitOrder = s.bitOrder ∧
      u.encSrc = ⟨input, bits.length, false, false⟩ ∧ u.encSnk.closed = false ∧ EncTracks u ∧ CountOk u := by
  obtain ⟨u, hrun, hu, ho, hsrc, hclosed⟩ := (encFree_launch input hsch).runSteps_bits (bits := bits) (rest := rest) hinput
  exact ⟨u, hrun, hu, ho, by simpa [launch_enc, Source.attached] using hsrc, hclosed,
    runSteps_keeps stepKeepsEncoderTracking hrun (encTracks_launch input s),
    runSteps_keeps stepKeepsTheCountInvariant hrun (countOk_launch input s)⟩

/-- ENC has written whole records. -/
theorem EncTracks.written_whole {s : State} (h : EncTracks s) (hp : s.enc.phase = .active) : s.encSnk.written.length % 8 = 0 := by
  obtain ⟨hfresh, hpending⟩ := (encTracks_iff s).1 h hp
  by_cases h0 : s.encSrc.pos = 0
  · obtain ⟨hwritten, -, -⟩ := hfresh h0
    rw [hwritten]
    rfl
  · obtain ⟨records, -, hwritten, -⟩ := hpending h0
    rw [hwritten, unpackBytes_length, Nat.mul_mod_right]

/-- With the pending record, which is there once a bit is consumed, ENC has written the closed form of the consumed input. -/
theorem EncTracks.flushed {s : State} (h : EncTracks s) (hcount : CountOk s) (hp : s.enc.phase = .active) :
    (s.encSnk.written ++ if 0#8 < s.enc.count then bitsOfRecord s.bitOrder s.enc.count else []) =
      unpackBytes s.bitOrder (encRecords (s.encSrc.bits.take s.encSrc.pos)) := by
  obtain ⟨hfresh, hpending⟩ := (encTracks_iff s).1 h hp
  by_cases h0 : s.encSrc.pos = 0
  · obtain ⟨hwritten, hzero, -⟩ := hfresh h0
    simp [hwritten, hzero, h0, encRecords_nil]
  · obtain ⟨records, hrecords, hwritten, -⟩ := hpending h0
    have hpos : 0#8 < s.enc.count := (BitVec.pos_iff_ne_zero _).2 (mt hcount.1.1 h0)
    rw [if_pos hpos, hwritten, hrecords, unpackBytes_append, unpackBytes_cons, unpackBytes_nil, List.append_nil]

/-- Closing a sink of whole bytes pads nothing (R35). -/
theorem snkClose_of_whole {o : BitOrder} {k : Sink} (h : k.written.length % 8 = 0) :
    snkClose o k = { k with closed := true, delivered := some (packBytes o k.written) } := by
  simp [snkClose, padLength_eq_zero h, snkRepeatBit_zero]

/-- E.END delivers the closed form of the consumed input, unpadded (R63, R66). -/
theorem EncTracks.encSnk_eEnd {s : State} (h : EncTracks s) (hcount : CountOk s) (hp : s.enc.phase = .active) :
    (eEndEffect s).encSnk =
      { s.encSnk with
        written := unpackBytes s.bitOrder (encRecords (s.encSrc.bits.take s.encSrc.pos))
        closed := true
        delivered := some (encRecords (s.encSrc.bits.take s.encSrc.pos)) } := by
  rw [eEndEffect_eq, h.flushed hcount hp]
  refine (snkClose_of_whole ?_).trans ?_
  · simp
  · rw [packBytes_unpackBytes]

/-- The whole run of ENC: the state `u` before E.END, and the sink after it. -/
theorem encoder_run {s : State} (hsch : s.schedule = []) (input : List Bit) :
    ∃ u, runSteps input.length (launch .enc input s) = .next u ∧ EncFree u ∧
      runSteps (input.length + 1) (launch .enc input s) = .next (eEndEffect u) ∧
      u.encSnk.written.length % 8 = 0 ∧
      (u.encSnk.written ++ if 0#8 < u.enc.count then bitsOfRecord s.bitOrder u.enc.count else []) =
        unpackBytes s.bitOrder (encRecords input) ∧
      (eEndEffect u).encSnk =
        { u.encSnk with
          written := unpackBytes s.bitOrder (encRecords input), closed := true, delivered := some (encRecords input) } := by
  obtain ⟨u, hrun, hfree, ho, hsrc, -, htracks, hcount⟩ := runSteps_launch_enc hsch (List.append_nil input).symm
  have hp := hfree.active
  have hend : remaining u.encSrc = [] := by simp [remaining, hsrc]
  have hconsumed : u.encSrc.bits.take u.encSrc.pos = input := by simp [hsrc]
  have hflushed := htracks.flushed hcount hp
  have hsnk := htracks.encSnk_eEnd hcount hp
  rw [hconsumed, ho] at hflushed hsnk
  exact ⟨u, hrun, hfree, runSteps_snoc hrun (hfree.step_eEnd hend), htracks.written_whole hp, hflushed, hsnk⟩

theorem eEndEffect_phase (s : State) : (eEndEffect s).enc.phase = .done := by
  rw [eEndEffect_eq]

/-- After E.END what it delivered is observed (R63, R89). -/
theorem observe_eEndEffect {s : State} (hrun : s.running = .enc) :
    observe (eEndEffect s) = (eEndEffect s).encSnk.delivered.map .delivered := by
  have hrun' : (eEndEffect s).running = .enc := by rw [eEndEffect_eq]; exact hrun
  simp [observe, hrun', eEndEffect_phase]

/-- Settles O43: the tracking invariant and the count invariant hold before E.END, which writes the pending record. -/
theorem encoderRunDeliversTheClosedForm : Obligations.EncoderRunDeliversTheClosedForm := by
  unfold Obligations.EncoderRunDeliversTheClosedForm
  intro s input hsch
  refine ⟨fun k hk => ?_, ?_⟩
  · obtain ⟨u, hrun, hfree, -, hsrc, hclosed, -, -⟩ :=
      runSteps_launch_enc hsch (List.take_append_drop k input).symm
    rw [List.length_take_of_le hk] at hrun hsrc
    exact ⟨u, hrun, hfree.active, by rw [hsrc], hclosed⟩
  · obtain ⟨u, -, ⟨⟨hu, -, -⟩, -, -⟩, hrun, -, -, hsnk⟩ := encoder_run hsch input
    exact ⟨_, hrun, eEndEffect_phase u, by rw [hsnk], by rw [hsnk], by rw [observe_eEndEffect hu, hsnk]; rfl⟩

/-! ### Records of 0 -/

/-- A run has no record 0 (R64 (b), R66). -/
theorem ne_zero_of_mem_encRun {n : Nat} (hn : 1 ≤ n) {c : Record} (hc : c ∈ encRun n) : c ≠ 0#8 := by
  rcases List.mem_append.1 hc with hc | hc
  · rw [List.eq_of_mem_replicate hc]
    decide
  · rw [List.mem_singleton.1 hc]
    intro h
    have := congrArg BitVec.toNat h
    simp only [BitVec.toNat_ofNat] at this
    omega

/-- The first run is of the first bit, so the leading record stands exactly for a first bit 1. -/
theorem leadingRecord_runsOf (input : List Bit) :
    leadingRecord (runsOf input) = if input.head? = some true then [0#8] else [] := by
  cases input with
  | nil => rfl
  | cons b bits =>
    have hfirst : ∃ n rest, runsOf (b :: bits) = (b, n) :: rest := by
      unfold runsOf
      split
      · exact ⟨1, [], rfl⟩
      · split
        · rename_i v n rest _ hb
          exact ⟨n + 1, rest, by rw [hb]⟩
        · exact ⟨1, _, rfl⟩
    obtain ⟨n, rest, hruns⟩ := hfirst
    rw [hruns]
    cases b <;> rfl

/-- Record i is 0 exactly where i is 0 and the first bit 1 (R66). -/
theorem encRecords_eq_zero_iff (input : List Bit) {i : Nat} {c : Record} (h : (encRecords input)[i]? = some c) :
    c = 0#8 ↔ i = 0 ∧ input.head? = some true := by
  have hruns : ∀ c ∈ (runsOf input).flatMap fun r => encRun r.2, c ≠ 0#8 := by
    intro c hc
    obtain ⟨r, hr, hc⟩ := List.mem_flatMap.1 hc
    exact ne_zero_of_mem_encRun (runsOf_pos input r hr) hc
  rw [encRecords, leadingRecord_runsOf] at h
  split at h
  · rename_i hhead
    cases i with
    | zero => exact iff_of_true (Option.some.inj h).symm ⟨rfl, hhead⟩
    | succ i =>
      refine iff_of_false (hruns c (List.mem_of_getElem? h)) ?_
      rintro ⟨hi, -⟩
      cases hi
  · rename_i hhead
    exact iff_of_false (hruns c (List.mem_of_getElem? h)) fun hc => hhead hc.2

/-- Settles O44: `u` is the state before E.END, and the records are the closed form, in which only the leading record is 0. -/
theorem encoderWritesZeroOnlyFirst : Obligations.EncoderWritesZeroOnlyFirst := by
  unfold Obligations.EncoderWritesZeroOnlyFirst
  intro s input hsch
  obtain ⟨u, hrun, -, hrunEnd, hwhole, hflushed, hsnk⟩ := encoder_run hsch input
  refine ⟨u, _, encRecords input, hrun, hrunEnd, eEndEffect_phase u, ?_, hwhole, ?_, ?_, ?_,
    fun i c h => encRecords_eq_zero_iff input h⟩ <;> rw [hsnk]
  · exact hflushed.symm
  · exact unpackBytes_length _ _

/-! ### The literal algorithm -/

/-- For a count of 8 bits EmitRun's loop does not iterate (R61). -/
theorem literalEmitRun_record (o : BitOrder) (c : Record) (k : Sink) :
    literalEmitRun o (c.toNat + 1) c.toNat k = snkWriteUint o c.toNat 8 k :=
  if_neg (by bv_omega)

/-- The literal test `count >= 255` is the trigger of E.BIT (R62, R65). -/
theorem literal_trigger_iff (b : Bit) (r : EncRegs) :
    b ≠ r.lastBit ∨ (255 ≤ r.count.toNat ∧ b = r.lastBit) ↔ mustEmit b r = true := by
  have hcount : 255 ≤ r.count.toNat ↔ r.count = 255#8 := by bv_omega
  rw [mustEmit_iff_trigger, hcount]

/-- One bit of the literal algorithm is E.BIT (R62). -/
theorem literalEncoder_cons (b : Bit) (rest : List Bit) (s : State) :
    literalEncoder s.bitOrder (b :: rest) s.enc.lastBit s.enc.count.toNat s.encSnk =
      literalEncoder s.bitOrder rest (eBitEffect b (afterBit s)).enc.lastBit (eBitEffect b (afterBit s)).enc.count.toNat
        (eBitEffect b (afterBit s)).encSnk := by
  rw [literalEncoder, eBitEffect_eq, afterBit_enc]
  cases hm : mustEmit b s.enc with
  | true =>
    rw [if_pos ((literal_trigger_iff b s.enc).2 hm), literalEmitRun_record]
    rfl
  | false =>
    obtain ⟨-, hcount⟩ := (mustEmit_eq_false_iff b s.enc).1 hm
    rw [if_neg (by rw [literal_trigger_iff, hm]; decide), ← count_succ_toNat hcount]
    rfl

/-- The end of the literal algorithm is E.END (R63). -/
theorem literalEncoder_nil (s : State) :
    literalEncoder s.bitOrder [] s.enc.lastBit s.enc.count.toNat s.encSnk = (eEndEffect s).encSnk := by
  rw [literalEncoder, literalEmitRun_record, eEndEffect_eq]
  by_cases h : 0#8 < s.enc.count
  · rw [if_pos h, if_pos (by exact h)]
    rfl
  · rw [if_neg h, if_neg (by exact h), List.append_nil]

/-- From any state of an undisturbed ENC, the literal algorithm on the bits left leaves the sink that ENC leaves. -/
theorem EncFree.runSteps_literal {s : State} (h : EncFree s) {bits : List Bit} (hr : remaining s.encSrc = bits) :
    ∃ t, runSteps (bits.length + 1) s = .next t ∧
      t.encSnk = literalEncoder s.bitOrder bits s.enc.lastBit s.enc.count.toNat s.encSnk := by
  induction bits generalizing s with
  | nil => exact ⟨_, runSteps_succ_of_next (h.step_eEnd hr), (literalEncoder_nil s).symm⟩
  | cons b rest ih =>
    obtain ⟨hfree, ho, hsrc, -⟩ := h.eBit b
    obtain ⟨t, hrun, ht⟩ := ih hfree (by rw [hsrc, remaining_advance, hr]; rfl)
    refine ⟨t, (runSteps_succ_of_next (h.step_eBit hr)).trans hrun, ?_⟩
    rw [ht, ho, literalEncoder_cons]

/-- Settles O45: the run of `EncFree.runSteps_literal` from a launch. -/
theorem literalEncoderGivesTheSameOutput : Obligations.LiteralEncoderGivesTheSameOutput := by
  unfold Obligations.LiteralEncoderGivesTheSameOutput
  intro s input hsch
  exact (encFree_launch input hsch).runSteps_literal (bits := input) rfl

end Sys2Proof.Safety
end

section
/-! SUPPORT. DEC on ENC's records (R75): what a run of records does to the implied bit and the output, and how DEC ends. -/

namespace Sys2Proof.Safety

open Sys2Proof.Machine

/-! ### The records of one run -/

/-- Continuation records keep the implied bit and give 255 copies of it each (R69, R74). -/
theorem decoded_replicate_cont (before : List Record) (q : Nat) :
    impliedBit (before ++ List.replicate q 255#8) = impliedBit before ∧
      decodedBits (before ++ List.replicate q 255#8) = decodedBits before ++ List.replicate (255 * q) (impliedBit before) := by
  induction q with
  | zero => simp
  | succ q ih =>
    obtain ⟨hbit, hbits⟩ := ih
    rw [List.replicate_succ', ← List.append_assoc, impliedBit_snoc, decodedBits_snoc, hbit, hbits, List.append_assoc,
      Nat.mul_succ, List.replicate_add]
    exact ⟨rfl, rfl⟩

/-- The last record of a run is 1 to 255, and 255 exactly for a defective run (R64 (b), R14). -/
theorem encRun_last_eq_cont_iff {n : Nat} (hn : 1 ≤ n) :
    BitVec.ofNat 8 (n - 255 * ((n - 1) / 255)) = 255#8 ↔ defective n = true := by
  rw [← BitVec.toNat_inj]
  simp only [BitVec.toNat_ofNat, defective, Bool.and_eq_true, decide_eq_true_eq]
  omega

/-- A defective run leaves the implied bit as it is, and any other flips it (R75, 2). -/
theorem impliedBit_append_encRun (before : List Record) {n : Nat} (hn : 1 ≤ n) :
    impliedBit (before ++ encRun n) = if defective n = true then impliedBit before else !impliedBit before := by
  obtain ⟨hbit, -⟩ := decoded_replicate_cont before ((n - 1) / 255)
  rw [encRun, ← List.append_assoc, impliedBit_snoc, hbit]
  simp only [encRun_last_eq_cont_iff hn]

/-- The records of a run of n bits give n copies of the implied bit (R75, 3). -/
theorem decodedBits_append_encRun (before : List Record) {n : Nat} (hn : 1 ≤ n) :
    decodedBits (before ++ encRun n) = decodedBits before ++ List.replicate n (impliedBit before) := by
  obtain ⟨hbit, hbits⟩ := decoded_replicate_cont before ((n - 1) / 255)
  have hlast : (BitVec.ofNat 8 (n - 255 * ((n - 1) / 255))).toNat = n - 255 * ((n - 1) / 255) := by
    rw [BitVec.toNat_ofNat]
    omega
  have hlen : 255 * ((n - 1) / 255) + (n - 255 * ((n - 1) / 255)) = n := by omega
  rw [encRun, ← List.append_assoc, decodedBits_snoc, hbit, hbits, hlast, List.append_assoc, ← List.replicate_add, hlen]

/-! ### The records of several runs -/

/-- Whether an odd number of runs is defective: `dj mod 2` of R75 for the runs before run j. -/
def defectiveParity (runs : List (Bit × Nat)) : Bit := decide ((runs.filter fun r => defective r.2).length % 2 = 1)

theorem defectiveParity_snoc (runs : List (Bit × Nat)) (r : Bit × Nat) :
    defectiveParity (runs ++ [r]) = xor (defectiveParity runs) (defective r.2) := by
  unfold defectiveParity
  rw [List.filter_append, List.length_append, List.filter_singleton]
  cases defective r.2 with
  | false => simp
  | true => rcases Nat.mod_two_eq_zero_or_one (runs.filter fun r => defective r.2).length with h | h <;> simp [Nat.add_mod, h]

theorem roundTripBits_snoc (runs : List (Bit × Nat)) (r : Bit × Nat) :
    roundTripBits (runs ++ [r]) = roundTripBits runs ++ List.replicate r.2 (xor r.1 (defectiveParity runs)) := by
  unfold roundTripBits
  rw [List.length_append, List.length_singleton, List.range_succ, List.flatMap_append]
  congr 1
  · refine List.flatMap_congr fun i hi => ?_
    have hi' : i < runs.length := List.mem_range.1 hi
    rw [List.getD_append _ _ _ _ hi', List.take_append_of_le_length (Nat.le_of_lt hi')]
  · simp [defectiveParity]

/-- ENC's records before run `next`, the leading record included (R64 (b)). -/
def recordsBefore (runs : List (Bit × Nat)) (next : Bit × Nat) : List Record :=
  leadingRecord (runs ++ [next]) ++ runs.flatMap fun r => encRun r.2

theorem recordsBefore_snoc (runs : List (Bit × Nat)) (r next : Bit × Nat) :
    recordsBefore (runs ++ [r]) next = recordsBefore runs r ++ encRun r.2 := by
  rw [recordsBefore, leadingRecord_append (runs ++ [r]) [next] (by simp), List.flatMap_append, List.flatMap_singleton,
    ← List.append_assoc, recordsBefore]

/-- Each run but a defective one flips the implied bit, as the values of the runs alternate; so at run `next` it is the value of the
run, off by the defective runs before (R75, 2 and 4). -/
theorem impliedBit_recordsBefore (runs : List (Bit × Nat)) (next : Bit × Nat) (hpos : ∀ r ∈ runs, 1 ≤ r.2)
    (halt : (runs ++ [next]).IsChain fun r r' => r.1 ≠ r'.1) :
    impliedBit (recordsBefore runs next) = xor next.1 (defectiveParity runs) := by
  induction runs using List.reverseRecOn generalizing next with
  | nil =>
    obtain ⟨v, n⟩ := next
    cases v <;> rfl
  | append_singleton runs r ih =>
    rw [List.append_assoc, List.singleton_append] at halt
    obtain ⟨hbefore, hne, -⟩ := List.isChain_append_cons_cons.1 halt
    have hflip : next.1 = !r.1 := Bool.eq_not.2 hne.symm
    have hr := ih r (fun r' hr' => hpos r' (by simp [hr'])) hbefore
    rw [recordsBefore_snoc, impliedBit_append_encRun _ (hpos r (by simp)), hr, defectiveParity_snoc, hflip]
    cases defective r.2 <;> simp

/-- What DEC makes of the records before a run (R75, 4). -/
theorem decodedBits_recordsBefore (runs : List (Bit × Nat)) (next : Bit × Nat) (hpos : ∀ r ∈ runs, 1 ≤ r.2)
    (halt : (runs ++ [next]).IsChain fun r r' => r.1 ≠ r'.1) :
    decodedBits (recordsBefore runs next) = roundTripBits runs := by
  induction runs using List.reverseRecOn generalizing next with
  | nil =>
    obtain ⟨v, n⟩ := next
    cases v <;> rfl
  | append_singleton runs r ih =>
    rw [List.append_assoc, List.singleton_append] at halt
    obtain ⟨hbefore, -⟩ := List.isChain_split.1 halt
    have hpos' : ∀ r' ∈ runs, 1 ≤ r'.2 := fun r' hr' => hpos r' (by simp [hr'])
    rw [recordsBefore_snoc, decodedBits_append_encRun _ (hpos r (by simp)), ih r hpos' hbefore, roundTripBits_snoc,
      impliedBit_recordsBefore runs r hpos' hbefore]

/-- ENC's records of a nonempty input, its last run apart. -/
theorem encRecords_eq_recordsBefore {input : List Bit} {runs : List (Bit × Nat)} {r : Bit × Nat}
    (h : runsOf input = runs ++ [r]) : encRecords input = recordsBefore runs r ++ encRun r.2 := by
  simp [encRecords, recordsBefore, h]

/-- DEC makes of ENC's records the runs, each off by the defective runs before it (R75, 4). -/
theorem decodedBits_encRecords (input : List Bit) : decodedBits (encRecords input) = roundTripBits (runsOf input) := by
  have hpos := runsOf_pos input
  have halt := runsOf_alternate input
  cases hruns : runsOf input using List.reverseRecOn with
  | nil => simp [encRecords, hruns, leadingRecord, decodedBits, roundTripBits]
  | append_singleton runs r _ =>
    rw [hruns] at hpos halt
    have hpos' : ∀ r' ∈ runs, 1 ≤ r'.2 := fun r' hr' => hpos r' (by simp [hr'])
    rw [encRecords_eq_recordsBefore hruns, decodedBits_append_encRun _ (hpos r (by simp)),
      decodedBits_recordsBefore runs r hpos' halt, impliedBit_recordsBefore runs r hpos' halt, roundTripBits_snoc]

/-- ENC's last record is a continuation record exactly when the last run is defective (R75, 4). -/
theorem encRecords_getLast?_eq_cont_iff (input : List Bit) :
    (encRecords input).getLast? = some 255#8 ↔ (runsOf input).getLast?.any (fun r => defective r.2) = true := by
  have hpos := runsOf_pos input
  cases hruns : runsOf input using List.reverseRecOn with
  | nil => simp [encRecords, hruns, leadingRecord]
  | append_singleton runs r _ =>
    rw [hruns] at hpos
    rw [encRecords_eq_recordsBefore hruns, encRun, ← List.append_assoc, List.getLast?_concat, Option.some_inj,
      encRun_last_eq_cont_iff (hpos r (by simp)), List.getLast?_concat]
    rfl

/-! ### The end of DEC's run -/

/-- At the end of whole records, in a chain, DEC faults (R69, R81). -/
theorem step_recordsDone_exhausted {s : State} (hsch : s.schedule = []) {records : List Record}
    (hlast : records.getLast? = some 255#8) :
    step (recordsDone s records []) =
      .next (raiseFault .srcExhausted (8 * records.length) (recordsDone s records [])) :=
  step_of_raise hsch (select_exhausted rfl rfl rfl (remaining_recordsDone ..) (decide_eq_true hlast))

/-- Settles O50: DEC executes ENC's records, and the last of them, 255 exactly for a defective last run, decides how it ends. -/
theorem roundTripOutcome : Obligations.RoundTripOutcome := by
  unfold Obligations.RoundTripOutcome
  intro s input hsch
  have hrecords := runSteps_records hsch (encRecords input) []
  rw [List.append_nil] at hrecords
  split
  · rename_i hdefective
    have hlast := (encRecords_getLast?_eq_cont_iff input).2 hdefective
    exact ⟨_, runSteps_snoc hrecords (step_recordsDone_exhausted hsch hlast), rfl⟩
  · rename_i hdefective
    have hlast := mt (encRecords_getLast?_eq_cont_iff input).1 hdefective
    refine ⟨_, runSteps_snoc hrecords (step_recordsDone_end hsch hlast), ?_⟩
    rw [← decodedBits_encRecords]
    rfl

end Sys2Proof.Safety
end

section
/-! SUPPORT. What D.CONT, D.RUN and D.END do where the state of DEC selects them (R68 to R71), and which turns enter FAULT (R81). -/

namespace Sys2Proof.Machine

open Sys2Proof.Safety

/-! ### The operations of a ready DEC -/

/-- DEC with a whole record to read runs D.CONT or D.RUN, if its sink accepts what the record may write (R68, R86). -/
theorem select_record_of_ready {s : State} (h : DecReady s) (hl : 8 ≤ (remaining s.decSrc).length)
    (hsnk : nextRecord s ≠ 0#8 → s.decSnk.stalled = false) :
    select s = .run (decodeRecord (nextRecord s)) (afterRecord s) := by
  obtain ⟨hrun, hp, hst⟩ := h
  rw [select_record hrun hp hst hl]
  refine gate_of_ready fun hw => ?_
  rw [State.snk_dec (s := afterRecord s) hrun]
  exact hsnk ((writesSink_decodeRecord _ _).1 hw)

/-- The operation of the next record completes, with the effect of `effectOf_decodeRecord` (R69, R70). -/
theorem exec_record_of_ready {s : State} (h : DecReady s) (hl : 8 ≤ (remaining s.decSrc).length)
    (hsnk : nextRecord s ≠ 0#8 → s.decSnk.stalled = false) :
    exec (decodeRecord (nextRecord s)) s = .next (effectOf (decodeRecord (nextRecord s)) (afterRecord s)) :=
  exec_of_run (select_record_of_ready h hl hsnk)

/-- Settles O22: the operation is that of the record 255; after it DEC is in a chain, so that a source without a further bit selects
the fault. -/
theorem dContCompletes : Obligations.DContCompletes := by
  unfold Obligations.DContCompletes
  intro s hready hl hrec hsnk
  have hexec := exec_record_of_ready hready hl fun _ => hsnk
  rw [show nextRecord s = 255#8 from hrec] at hexec
  obtain ⟨hrun, hp, hst⟩ := hready
  refine ⟨_, hexec, dContEffect_eq (afterRecord s), fun hn hlast => ?_⟩
  rw [step_of_block hn]
  refine blockTurn_of_raise (select_exhausted hrun hp hst ?_ rfl)
  change remaining { s.decSrc with pos := s.decSrc.pos + 8 } = []
  rw [remaining_advance, List.drop_eq_nil_of_le hlast.le]

/-- Settles O23: the operation is that of a record which is not 255. -/
theorem dRunCompletes : Obligations.DRunCompletes := by
  unfold Obligations.DRunCompletes
  rintro s c hready hl rfl hc hsnk
  have hexec := exec_record_of_ready hready hl hsnk
  rwa [show decodeRecord (nextRecord s) = .dRun (nextRecord s) from if_neg hc] at hexec

/-- Settles O24: the operation is selected, and its effect is `dEndEffect_eq`. -/
theorem dEndCompletes : Obligations.DEndCompletes := by
  unfold Obligations.DEndCompletes
  rintro s ⟨hrun, hp, hst⟩ hr hchain hsnk
  refine exec_of_run (i := .dEnd) ?_
  rw [select_decEnd hrun hp hst hr hchain]
  refine gate_of_ready fun _ => ?_
  rwa [State.snk_dec hrun]

/-! ### Entering FAULT -/

/-- DEC's required read cannot be satisfied: 1 to 7 bits are left, or none inside a chain (R81). -/
def ReadUnsatisfied (s : State) : Prop :=
  DecReady s ∧ (remaining s.decSrc).length < 8 ∧ (remaining s.decSrc = [] → s.dec.chain = true)

/-- DEC's turn then raises a fault. -/
theorem ReadUnsatisfied.blockTurn_faults {s : State} (h : ReadUnsatisfied s) : ∃ t, blockTurn s = .next t ∧ FaultOf s t := by
  obtain ⟨⟨hrun, hp, hst⟩, hl, hchain⟩ := h
  by_cases hr : remaining s.decSrc = []
  · exact ⟨_, blockTurn_of_raise (select_exhausted hrun hp hst hr (hchain hr)), .exhausted hrun hp hst hr (hchain hr)⟩
  · exact ⟨_, blockTurn_of_raise (select_short hrun hp hst hr hl), .short hrun hp hst hr hl⟩

/-- All that a fault says: why it was raised, and the cause and position it records (R80, R81). -/
theorem FaultOf.records {s t : State} (h : FaultOf s t) :
    ReadUnsatisfied s ∧ t.dec.phase = .fault ∧ t.dec.faultPos = s.decSrc.pos ∧
      t.dec.cause = if remaining s.decSrc = [] then .srcExhausted else .srcShort := by
  cases h with
  | exhausted hrun hp hst hr hc => exact ⟨⟨⟨hrun, hp, hst⟩, by simp [hr], fun _ => hc⟩, rfl, rfl, (if_pos hr).symm⟩
  | short hrun hp hst hr hl => exact ⟨⟨⟨hrun, hp, hst⟩, hl, fun h => absurd h hr⟩, rfl, rfl, (if_neg hr).symm⟩

/-- No operation enters FAULT: E.BIT and E.END leave DEC, and DEC's own leave it ACTIVE or DONE (R62, R63, R69 to R71). -/
theorem OperationOf.fault_before {s t : State} (h : OperationOf s t) (ht : t.dec.phase = .fault) : s.dec.phase = .fault := by
  cases h with
  | eBit b =>
    rw [eBitEffect_eq] at ht
    split at ht <;> exact ht
  | eEnd =>
    rw [eEndEffect_eq] at ht
    exact ht
  | dCont | dRun => exact ht
  | dEnd => cases ht

/-- No change by the host enters FAULT: it leaves DEC's registers or resets them (R91, R95). -/
theorem HostChange.fault_before {s t : State} (h : HostChange s t) (ht : t.dec.phase = .fault) : s.dec.phase = .fault := by
  obtain ⟨x, k, -, -, rfl⟩ | ⟨hp, -⟩ | ⟨blk, input, rfl⟩ := hostChange_cases h
  · simpa using ht
  · exact hp
  · cases blk with
    | enc => exact ht
    | dec => cases ht

/-- The block's turn enters FAULT exactly by raising a fault. -/
theorem blockTurn_enters_fault_iff {s t : State} (h : blockTurn s = .next t) (hs : s.dec.phase ≠ .fault) :
    t.dec.phase = .fault ↔ FaultOf s t := by
  constructor
  · intro ht
    obtain hop | hfault | rfl := blockTurn_next h
    · exact absurd (hop.fault_before ht) hs
    · exact hfault
    · exact absurd ht hs
  · intro hfault
    obtain ⟨-, ht, -⟩ := hfault.records
    exact ht

/-- Settles O27: the block's turn enters FAULT by raising a fault, which it does on an unsatisfied read, and the host's never does. -/
theorem faultsAreExactlyUnsatisfiedReads : Obligations.FaultsAreExactlyUnsatisfiedReads := by
  unfold Obligations.FaultsAreExactlyUnsatisfiedReads
  refine ⟨fun s t hn h hs => ?_, fun s t m hn h ht => ?_⟩
  · rw [step_of_block hn] at h
    have hiff := blockTurn_enters_fault_iff h hs
    have hrecords := fun ht => (hiff.1 ht).records
    refine ⟨⟨fun ht => (hrecords ht).1, fun hread => ?_⟩, fun ht hr => ?_, fun ht hr => ?_, fun ht => ?_⟩
    · obtain ⟨u, hu, hfault⟩ := ReadUnsatisfied.blockTurn_faults (s := popTurn s) hread
      obtain rfl : t = u := Host.Outcome.next.inj (h.symm.trans hu)
      exact hiff.2 hfault
    · obtain ⟨-, -, -, hcause⟩ := hrecords ht
      exact hcause.trans (if_pos hr)
    · obtain ⟨-, -, -, hcause⟩ := hrecords ht
      exact hcause.trans (if_neg hr)
    · obtain ⟨-, -, hpos, -⟩ := hrecords ht
      exact hpos
  · rw [step_of_host hn] at h
    exact (hostTurn_next h).fault_before (s := popTurn s) ht

end Sys2Proof.Machine
end

section
/-! SUPPORT. DEC's whole run on any input: its steps and the three ways it ends (R73, R78). -/

namespace Sys2Proof.Safety

open Sys2Proof.Machine

/-! ### From a launch to the end, for any input -/

/-- The bits of an input after its whole records, too few for one more (R38, R39). -/
def partialRecord (input : List Bit) : List Bit := input.drop (8 * (input.length / 8))

theorem partialRecord_length (input : List Bit) : (partialRecord input).length = input.length % 8 := by
  rw [partialRecord, List.length_drop]
  omega

theorem partialRecord_length_lt (input : List Bit) : (partialRecord input).length < 8 :=
  (partialRecord_length input).trans_lt (Nat.mod_lt _ (by decide))

/-- Any input is its whole records and the bits after them. -/
theorem unpackBytes_packBytes_append_partialRecord (o : BitOrder) (input : List Bit) :
    unpackBytes o (packBytes o input) ++ partialRecord input = input := by
  rw [partialRecord]
  induction hn : input.length / 8 generalizing input with
  | zero =>
    rw [packBytes_of_lt o (by omega)]
    rfl
  | succ n ih =>
    have hlen : 8 ≤ input.length := by omega
    have hrest : (input.drop 8).length / 8 = n := by
      rw [List.length_drop]
      omega
    have hdrop : input.drop (8 * (n + 1)) = (input.drop 8).drop (8 * n) := by
      rw [List.drop_drop, Nat.mul_succ, Nat.add_comm]
    rw [packBytes_of_le o hlen, unpackBytes_cons, bitsOfRecord_recordOfBits o _ (List.length_take_of_le hlen), hdrop,
      List.append_assoc, ih _ hrest, List.take_append_drop]

/-- The state in which DEC's run on whole records and then fewer than eight bits ends: a fault on bits that make no record, or after
a continuation record, and else the end of D.END (R68, R71, R73). -/
def decoderEnd (s : State) (records : List Record) (tail : List Bit) : State :=
  if tail ≠ [] then raiseFault .srcShort (8 * records.length) (recordsDone s records tail)
  else if records.getLast? = some 255#8 then
    raiseFault .srcExhausted (8 * records.length) (recordsDone s records tail)
  else dEndEffect (recordsDone s records tail)

theorem decoderEnd_of_short (s : State) (records : List Record) {tail : List Bit} (h : tail ≠ []) :
    decoderEnd s records tail = raiseFault .srcShort (8 * records.length) (recordsDone s records tail) :=
  if_pos h

theorem decoderEnd_of_exhausted (s : State) {records : List Record} (h : records.getLast? = some 255#8) :
    decoderEnd s records [] = raiseFault .srcExhausted (8 * records.length) (recordsDone s records []) :=
  if_pos h

theorem decoderEnd_of_done (s : State) {records : List Record} (h : records.getLast? ≠ some 255#8) :
    decoderEnd s records [] = dEndEffect (recordsDone s records []) :=
  if_neg h

/-- On 1 to 7 bits after whole records DEC faults (R81). -/
theorem step_recordsDone_short {s : State} (hsch : s.schedule = []) (records : List Record) {tail : List Bit}
    (hne : tail ≠ []) (hlen : tail.length < 8) :
    step (recordsDone s records tail) =
      .next (raiseFault .srcShort (8 * records.length) (recordsDone s records tail)) := by
  have hr := remaining_recordsDone s records tail
  exact step_of_raise hsch (select_short rfl rfl rfl (by rwa [hr]) (by rwa [hr]))

/-- DEC's step after the whole records of its input is its last. -/
theorem step_recordsDone_decoderEnd {s : State} (hsch : s.schedule = []) (records : List Record) {tail : List Bit}
    (hlen : tail.length < 8) : step (recordsDone s records tail) = .next (decoderEnd s records tail) := by
  by_cases hne : tail = []
  · subst hne
    by_cases hlast : records.getLast? = some 255#8
    · rw [step_recordsDone_exhausted hsch hlast, decoderEnd_of_exhausted s hlast]
    · rw [step_recordsDone_end hsch hlast, decoderEnd_of_done s hlast]
  · rw [step_recordsDone_short hsch records hne hlen, decoderEnd_of_short s records hne]

/-- DEC's run on any input: one step for each whole record, and one more (R73, R78). -/
theorem runSteps_decoder {s : State} (hsch : s.schedule = []) (input : List Bit) :
    runSteps (input.length / 8) (launch .dec input s) =
      .next (recordsDone s (packBytes s.bitOrder input) (partialRecord input)) ∧
    runSteps (input.length / 8 + 1) (launch .dec input s) =
      .next (decoderEnd s (packBytes s.bitOrder input) (partialRecord input)) := by
  have hrecords := runSteps_records hsch (packBytes s.bitOrder input) (partialRecord input)
  rw [packBytes_length, unpackBytes_packBytes_append_partialRecord] at hrecords
  exact ⟨hrecords, runSteps_snoc hrecords (step_recordsDone_decoderEnd hsch _ (partialRecord_length_lt input))⟩

/-- Settles O46: the run of `runSteps_decoder`, whose end is one of the three of `decoderEnd`. -/
theorem decoderAcceptsExactlyWellFormedStreams : Obligations.DecoderAcceptsExactlyWellFormedStreams := by
  unfold Obligations.DecoderAcceptsExactlyWellFormedStreams
  intro s input hsch
  obtain ⟨hrecords, hend⟩ := runSteps_decoder hsch input
  have hK := packBytes_length s.bitOrder input
  have htail := partialRecord_length input
  refine ⟨⟨_, hrecords, rfl, congrArg (8 * ·) hK, rfl⟩, _, hend, fun hwhole hlast => ?_, fun hpartial => ?_,
    fun hwhole hlast => ?_⟩
  · rw [List.eq_nil_of_length_eq_zero (htail.trans hwhole), decoderEnd_of_done s hlast]
    rfl
  · rw [decoderEnd_of_short s _ (List.ne_nil_of_length_pos (by omega)), hK]
    rfl
  · rw [List.eq_nil_of_length_eq_zero (htail.trans hwhole), decoderEnd_of_exhausted s hlast, hK]
    rfl

end Sys2Proof.Safety
end

section
/-! SUPPORT. DEC's two nested loops read literally (R72), and their end as that of DEC's run. -/

namespace Sys2Proof.Safety

open Sys2Proof.Machine

/-! ### The literal loops on DEC's state -/

/-- The end of the machine's run and the end of the literal loops agree (R72). -/
def EndsAs (t : State) : LiteralEnd → Prop
  | .ok (bit, k) => t.dec.phase = .done ∧ t.dec.bit = bit ∧ t.decSnk = k
  | .error (cause, pos) => t.dec.phase = .fault ∧ t.dec.cause = cause ∧ t.dec.faultPos = pos

/-- The outer loop of R72, at its test, with DEC's `bit`, source and sink. -/
def literalOuter (fuel : Nat) (u : State) : LiteralEnd := literalDecoder u.bitOrder fuel u.dec.bit u.decSrc u.decSnk

/-- What the outer loop of R72 does with the result of the inner one. -/
def literalResume (o : BitOrder) (fuel : Nat) (bit : Bit) : Except (Cause × Nat) (Nat × Source × Sink) → LiteralEnd
  | .error e => .error e
  | .ok (c, x, k) => literalDecoder o fuel (!bit) x (snkRepeatBit c bit k)

/-- The inner loop of R72, at its read, with DEC's `bit`, source and sink, and what follows it. -/
def literalInner (fuel chainFuel : Nat) (u : State) : LiteralEnd :=
  literalResume u.bitOrder fuel u.dec.bit (literalChain u.bitOrder chainFuel u.dec.bit u.decSrc u.decSnk)

theorem literalOuter_of_empty (fuel : Nat) {u : State} (h : remaining u.decSrc = []) :
    literalOuter (fuel + 1) u = .ok (u.dec.bit, snkClose u.bitOrder u.decSnk) :=
  if_pos ((srcIsEmpty_iff _).2 h)

theorem literalOuter_of_nonempty (fuel : Nat) {u : State} (h : remaining u.decSrc ≠ []) :
    literalOuter (fuel + 1) u = literalInner fuel (u.decSrc.bits.length + 1) u := by
  rw [literalOuter, literalDecoder, if_neg (mt (srcIsEmpty_iff _).1 h), literalInner]
  cases literalChain u.bitOrder (u.decSrc.bits.length + 1) u.dec.bit u.decSrc u.decSnk <;> rfl

theorem literalInner_of_error {u : State} {cause : Cause} (h : srcReadUint u.bitOrder 8 u.decSrc = .error cause)
    (fuel chainFuel : Nat) : literalInner fuel (chainFuel + 1) u = .error (cause, u.decSrc.pos) := by
  rw [literalInner, literalChain, h]
  rfl

theorem literalInner_of_ok {u : State} {c : Nat} {x : Source} (h : srcReadUint u.bitOrder 8 u.decSrc = .ok (c, x))
    (fuel chainFuel : Nat) :
    literalInner fuel (chainFuel + 1) u =
      if c = 255 then
        literalResume u.bitOrder fuel u.dec.bit
          (literalChain u.bitOrder chainFuel u.dec.bit x (snkRepeatBit 255 u.dec.bit u.decSnk))
      else literalDecoder u.bitOrder fuel (!u.dec.bit) x (snkRepeatBit c u.dec.bit u.decSnk) := by
  rw [literalInner, literalChain, h]
  by_cases hc : c = 255
  · simp only [hc, if_true]
  · simp only [hc, if_false]
    rfl

/-- The literal read of the next record consumes what DEC consumes with it (R31, R68). -/
theorem srcReadUint_recordsDone (s : State) (records : List Record) (c : Record) (rest : List Bit) :
    srcReadUint s.bitOrder 8 (recordsDone s records (bitsOfRecord s.bitOrder c ++ rest)).decSrc =
      .ok (c.toNat, (recordsDone s (records ++ [c]) rest).decSrc) := by
  have hr := remaining_recordsDone s records (bitsOfRecord s.bitOrder c ++ rest)
  have hlen : 8 ≤ (remaining (recordsDone s records (bitsOfRecord s.bitOrder c ++ rest)).decSrc).length := by simp [hr]
  have hvalue : uintOfBits s.bitOrder (bitsOfRecord s.bitOrder c) = c.toNat :=
    (uintOfBits_bitsOfUint ..).trans (Nat.mod_eq_of_lt c.isLt)
  rw [srcReadUint_of_le s.bitOrder (List.ne_nil_of_length_pos (by omega)) hlen, hr,
    List.take_left' (bitsOfRecord_length s.bitOrder c), hvalue]
  simp [recordsDone, unpackBytes_append, unpackBytes_cons, Nat.mul_add]

/-- Writing a record's copies leaves the sink that DEC has after the record. -/
theorem snkRepeatBit_recordsDone (s : State) (records : List Record) (c : Record) (input rest : List Bit) :
    snkRepeatBit c.toNat (impliedBit records) (recordsDone s records input).decSnk =
      (recordsDone s (records ++ [c]) rest).decSnk := by
  simp [snkRepeatBit, snkAppend, recordsDone, decodedBits_snoc]

/-- What the literal loops do with the next record: after a 255 the inner loop reads again, after any other the outer loop goes on
(R69, R70, R72). -/
theorem literalInner_recordsDone (s : State) (records : List Record) (c : Record) (rest : List Bit) (fuel chainFuel : Nat) :
    literalInner fuel (chainFuel + 1) (recordsDone s records (bitsOfRecord s.bitOrder c ++ rest)) =
      if c = 255#8 then literalInner fuel chainFuel (recordsDone s (records ++ [c]) rest)
      else literalOuter fuel (recordsDone s (records ++ [c]) rest) := by
  have hsnk := snkRepeatBit_recordsDone s records c (bitsOfRecord s.bitOrder c ++ rest) rest
  have hbit := impliedBit_snoc records c
  have hcont : c = 255#8 ↔ c.toNat = 255 := BitVec.toNat_inj.symm
  rw [literalInner_of_ok (u := recordsDone s records _) (srcReadUint_recordsDone s records c rest)]
  by_cases hc : c = 255#8
  · rw [if_pos hc] at hbit ⊢
    rw [hcont.1 hc] at hsnk ⊢
    rw [if_pos rfl, literalInner, ← hsnk]
    simp only [recordsDone, hbit]
  · rw [if_neg hc] at hbit ⊢
    rw [if_neg (mt hcont.2 hc), literalOuter, ← hsnk]
    simp only [recordsDone, hbit]

/-! ### The literal loops and the machine -/

/-- Where no record is left and one is required, the inner loop's read fails as DEC's read does (R72, R81). -/
theorem endsAs_literalInner_nil (s : State) (records : List Record) {tail : List Bit} (hlen : tail.length < 8)
    (hrequired : tail = [] → records.getLast? = some 255#8) (fuel chainFuel : Nat) :
    EndsAs (decoderEnd s records tail) (literalInner fuel (chainFuel + 1) (recordsDone s records tail)) := by
  have hr := remaining_recordsDone s records tail
  obtain ⟨hempty, hread⟩ | ⟨hne, -, hread⟩ | ⟨-, hlong, -⟩ :=
    srcReadUint_cases s.bitOrder 8 (recordsDone s records tail).decSrc
  · obtain rfl : tail = [] := hr.symm.trans hempty
    rw [literalInner_of_error hread, decoderEnd_of_exhausted s (hrequired rfl)]
    exact ⟨rfl, rfl, rfl⟩
  · rw [hr] at hne
    rw [literalInner_of_error hread, decoderEnd_of_short s records hne]
    exact ⟨rfl, rfl, rfl⟩
  · rw [hr] at hlong
    omega

/-- Outside a chain the outer loop ends as DEC does: at the end of the input by the close, and else as its inner loop does, whose
fuel is more than the records left (R71, R72). -/
theorem endsAs_literalOuter {s : State} {before after : List Record} {tail : List Bit}
    (hlast : before.getLast? ≠ some 255#8) {fuel : Nat}
    (hinner : (after = [] → tail ≠ []) → ∀ chainFuel, after.length < chainFuel →
      EndsAs (decoderEnd s (before ++ after) tail)
        (literalInner fuel chainFuel (recordsDone s before (unpackBytes s.bitOrder after ++ tail)))) :
    EndsAs (decoderEnd s (before ++ after) tail)
      (literalOuter (fuel + 1) (recordsDone s before (unpackBytes s.bitOrder after ++ tail))) := by
  have hr := remaining_recordsDone s before (unpackBytes s.bitOrder after ++ tail)
  by_cases hend : after = [] ∧ tail = []
  · obtain ⟨rfl, rfl⟩ := hend
    rw [literalOuter_of_empty fuel hr, List.append_nil, decoderEnd_of_done s hlast]
    exact ⟨rfl, rfl, rfl⟩
  · have hne : unpackBytes s.bitOrder after ++ tail ≠ [] := by
      intro h
      obtain ⟨hafter, htail⟩ := List.append_eq_nil_iff.1 h
      exact hend ⟨by simpa using congrArg List.length hafter, htail⟩
    rw [literalOuter_of_nonempty fuel (by rwa [hr])]
    refine hinner (fun hafter htail => hend ⟨hafter, htail⟩) _ ?_
    simp only [recordsDone, List.length_append, unpackBytes_length]
    omega

/-- Where a record is required, the inner loop and what follows it end as DEC does: a 255 stays in the inner loop, and any other
record returns to the outer one (R72). -/
theorem endsAs_literalInner (s : State) {before after : List Record} {tail : List Bit} (hlen : tail.length < 8)
    (hrequired : after = [] → tail = [] → before.getLast? = some 255#8) {fuel chainFuel : Nat}
    (hfuel : after.length ≤ fuel) (hchainFuel : after.length < chainFuel) :
    EndsAs (decoderEnd s (before ++ after) tail)
      (literalInner fuel chainFuel (recordsDone s before (unpackBytes s.bitOrder after ++ tail))) := by
  induction after generalizing before fuel chainFuel with
  | nil =>
    obtain ⟨chainFuel, rfl⟩ := Nat.exists_eq_add_one.2 hchainFuel
    rw [List.append_nil]
    exact endsAs_literalInner_nil s before hlen (hrequired rfl) fuel chainFuel
  | cons c after ih =>
    obtain ⟨chainFuel, rfl⟩ := Nat.exists_eq_add_one.2 (Nat.zero_lt_of_lt hchainFuel)
    obtain ⟨fuel, rfl⟩ := Nat.exists_eq_add_one.2 (Nat.zero_lt_of_lt hfuel)
    rw [List.length_cons] at hfuel hchainFuel
    rw [unpackBytes_cons, List.append_assoc, List.append_cons before c after, literalInner_recordsDone]
    split
    · rename_i hc
      exact ih (by simp [hc]) (by omega) (by omega)
    · rename_i hc
      exact endsAs_literalOuter (by simpa using hc) fun hleft _ hchainFuel =>
        ih (fun hafter htail => absurd htail (hleft hafter)) (by omega) hchainFuel

/-- Settles O48: the literal loops and the run of `runSteps_decoder`, from the same start. -/
theorem literalDecoderGivesTheSameEnd : Obligations.LiteralDecoderGivesTheSameEnd := by
  unfold Obligations.LiteralDecoderGivesTheSameEnd
  intro s input hsch
  obtain ⟨-, hend⟩ := runSteps_decoder hsch input
  refine ⟨_, _, Nat.succ_le_succ (Nat.div_le_self _ 8), hend, ?_⟩
  have hfuel : (packBytes s.bitOrder input).length ≤ input.length :=
    (packBytes_length s.bitOrder input).trans_le (Nat.div_le_self _ 8)
  have hliteral := endsAs_literalOuter (s := s) (before := []) (after := packBytes s.bitOrder input)
    (tail := partialRecord input) (fuel := input.length) nofun fun hleft _ hchainFuel =>
      endsAs_literalInner s (partialRecord_length_lt input) (fun hafter htail => absurd htail (hleft hafter)) hfuel hchainFuel
  rw [unpackBytes_packBytes_append_partialRecord] at hliteral
  exact hliteral

end Sys2Proof.Safety
end

section
/-! SUPPORT. When DEC gives back what ENC was given (R75): exactness of the runs' output, and of the padded delivery. -/

namespace Sys2Proof.Safety

open Sys2Proof.Machine

/-! ### The runs that come out as they went in -/

theorem bitsOfRuns_snoc (runs : List (Bit × Nat)) (r : Bit × Nat) :
    bitsOfRuns (runs ++ [r]) = bitsOfRuns runs ++ List.replicate r.2 r.1 := by
  simp [bitsOfRuns]

/-- Every run keeps its length (R75, 3). -/
theorem roundTripBits_length (runs : List (Bit × Nat)) : (roundTripBits runs).length = (bitsOfRuns runs).length := by
  induction runs using List.reverseRecOn with
  | nil => rfl
  | append_singleton runs r ih => simp [roundTripBits_snoc, bitsOfRuns_snoc, ih]

/-- A last run comes out as it went in exactly if the runs before it do and leave the implied bit right (R75, 4). -/
theorem roundTripBits_snoc_eq_iff (runs : List (Bit × Nat)) {r : Bit × Nat} (hr : 1 ≤ r.2) :
    roundTripBits (runs ++ [r]) = bitsOfRuns (runs ++ [r]) ↔
      roundTripBits runs = bitsOfRuns runs ∧ defectiveParity runs = false := by
  have hne : r.2 ≠ 0 := by omega
  rw [roundTripBits_snoc, bitsOfRuns_snoc]
  constructor
  · intro h
    obtain ⟨hbefore, hlast⟩ := List.append_inj h (roundTripBits_length runs)
    have hflip : xor r.1 (defectiveParity runs) = r.1 := by simpa [List.replicate_inj, hne] using hlast
    exact ⟨hbefore, Bool.xor_right_inj.1 (hflip.trans (Bool.xor_false r.1).symm)⟩
  · rintro ⟨hbefore, hparity⟩
    rw [hbefore, hparity, Bool.xor_false]

/-- No run is defective exactly if the runs come out as they went in and leave the implied bit right (R75, 4 and 5). -/
theorem roundTripBits_eq_and_parity_iff {runs : List (Bit × Nat)} (hpos : ∀ r ∈ runs, 1 ≤ r.2) :
    roundTripBits runs = bitsOfRuns runs ∧ defectiveParity runs = false ↔ ∀ r ∈ runs, defective r.2 = false := by
  induction runs using List.reverseRecOn with
  | nil => simp [roundTripBits, bitsOfRuns, defectiveParity]
  | append_singleton runs r ih =>
    have hbefore := ih fun r' hr' => hpos r' (by simp [hr'])
    rw [roundTripBits_snoc_eq_iff runs (hpos r (by simp)), hbefore, List.forall_mem_append, List.forall_mem_singleton,
      defectiveParity_snoc, ← hbefore]
    constructor
    · rintro ⟨⟨hbits, hparity⟩, hxor⟩
      exact ⟨⟨hbits, hparity⟩, by simpa [hparity] using hxor⟩
    · rintro ⟨⟨hbits, hparity⟩, hr⟩
      exact ⟨⟨hbits, hparity⟩, by simp [hparity, hr]⟩

/-- The runs come out as they went in exactly if no run but the last is defective (R75, 5). -/
theorem roundTripBits_eq_iff {runs : List (Bit × Nat)} (hpos : ∀ r ∈ runs, 1 ≤ r.2) :
    roundTripBits runs = bitsOfRuns runs ↔ ∀ r ∈ runs.dropLast, defective r.2 = false := by
  cases runs using List.reverseRecOn with
  | nil => simp [roundTripBits, bitsOfRuns]
  | append_singleton runs r _ =>
    rw [roundTripBits_snoc_eq_iff runs (hpos r (by simp)), List.dropLast_concat,
      roundTripBits_eq_and_parity_iff fun r' hr' => hpos r' (by simp [hr'])]

/-- No run at all is defective exactly if none but the last is, and the last is not. -/
theorem forall_not_defective_iff (runs : List (Bit × Nat)) :
    (∀ r ∈ runs, defective r.2 = false) ↔
      (∀ r ∈ runs.dropLast, defective r.2 = false) ∧ runs.getLast?.any (fun r => defective r.2) = false := by
  cases runs using List.reverseRecOn with
  | nil => simp
  | append_singleton runs r _ =>
    rw [List.forall_mem_append, List.forall_mem_singleton, List.dropLast_concat, List.getLast?_concat]
    rfl

/-! ### The delivery -/

theorem padded_length_whole (bits : List Bit) : (padded bits).length % 8 = 0 := by
  rw [padded, List.length_append, List.length_replicate]
  exact padLength_whole bits.length

/-- Bits of one length are delivered as the same bytes only if they are the same bits (R36). -/
theorem packBytes_padded_inj (o : BitOrder) {xs ys : List Bit} (h : xs.length = ys.length) :
    packBytes o (padded xs) = packBytes o (padded ys) ↔ xs = ys := by
  refine ⟨fun hbytes => ?_, fun hbits => hbits ▸ rfl⟩
  obtain ⟨-, hunpack⟩ := packAndUnpackAreInverse o
  have hpadded : padded xs = padded ys := by
    rw [← hunpack _ (padded_length_whole xs), hbytes, hunpack _ (padded_length_whole ys)]
  exact (List.append_inj hpadded h).1

theorem runSteps_one (s : State) : runSteps 1 s = step s := by
  cases h : step s <;> simp [runSteps, h]

/-- Settles O51: W is what DEC makes of the runs, and one step later the outcome of `roundTripOutcome`, a fault where the last run is
defective. -/
theorem roundTripIsExactIffNoRunIsDefective : Obligations.RoundTripIsExactIffNoRunIsDefective := by
  unfold Obligations.RoundTripIsExactIffNoRunIsDefective
  intro s input hsch
  have hrecords := runSteps_records hsch (encRecords input) []
  rw [List.append_nil] at hrecords
  obtain ⟨u, hu, hobserve⟩ := roundTripOutcome s input hsch
  rw [runSteps_add hrecords, runSteps_one] at hu
  have hwritten : (recordsDone s (encRecords input) []).decSnk.written = roundTripBits (runsOf input) :=
    decodedBits_encRecords input
  have hlength : (roundTripBits (runsOf input)).length = input.length := by
    rw [roundTripBits_length, bitsOfRuns_runsOf]
  have hexact := roundTripBits_eq_iff (runsOf_pos input)
  rw [bitsOfRuns_runsOf] at hexact
  refine ⟨_, u, hrecords, by rw [hwritten, hlength], by rw [hwritten, hexact], hu, ?_⟩
  rw [forall_not_defective_iff, ← hexact]
  split at hobserve
  · rename_i hdefective
    simp [hobserve, hdefective]
  · rename_i hsound
    rw [hobserve, Option.some_inj, Observation.delivered.injEq, packBytes_padded_inj s.bitOrder hlength]
    simp [hsound]

end Sys2Proof.Safety
end

section
/-! SUPPORT. Every operation and every fault is progress: it ends the run with something to observe, or leaves less to read. So an
undisturbed run ends (R89), and a step of an ACTIVE block that changes nothing is a hold (R86). -/

namespace Sys2Proof.Machine

open Sys2Proof.Safety

/-! ### Progress -/

/-- The running block has come to the end of its run, DONE or FAULT, with something to observe (R89). -/
def RunEnded (t : State) : Prop := t.isActive = false ∧ (observe t).isSome = true

/-- The running block is ACTIVE and no more disturbed than it was, and has less left to read. -/
def RunAdvanced (s t : State) : Prop :=
  t.isActive = true ∧ t.schedule = s.schedule ∧ t.src.stalled = s.src.stalled ∧ t.snk.stalled = s.snk.stalled ∧
    (remaining t.src).length < (remaining s.src).length

/-- A running ENC has advanced when it is still ACTIVE with less left to read. -/
theorem RunAdvanced.of_enc {s t : State} (hrun : s.running = .enc) (hrun' : t.running = .enc) (hp : t.enc.phase = .active)
    (hsch : t.schedule = s.schedule) (hst : t.encSrc.stalled = s.encSrc.stalled) (hsnk : t.encSnk.stalled = s.encSnk.stalled)
    (hlen : (remaining t.encSrc).length < (remaining s.encSrc).length) : RunAdvanced s t := by
  unfold RunAdvanced
  rw [State.src_enc hrun, State.src_enc hrun', State.snk_enc hrun, State.snk_enc hrun']
  exact ⟨by simp [State.isActive, hrun', hp], hsch, hst, hsnk, hlen⟩

/-- A running DEC has advanced when it is still ACTIVE with less left to read. -/
theorem RunAdvanced.of_dec {s t : State} (hrun : s.running = .dec) (hrun' : t.running = .dec) (hp : t.dec.phase = .active)
    (hsch : t.schedule = s.schedule) (hst : t.decSrc.stalled = s.decSrc.stalled) (hsnk : t.decSnk.stalled = s.decSnk.stalled)
    (hlen : (remaining t.decSrc).length < (remaining s.decSrc).length) : RunAdvanced s t := by
  unfold RunAdvanced
  rw [State.src_dec hrun, State.src_dec hrun', State.snk_dec hrun, State.snk_dec hrun']
  exact ⟨by simp [State.isActive, hrun', hp], hsch, hst, hsnk, hlen⟩

/-- Consuming bits that are there leaves fewer. -/
theorem remaining_advance_length_lt {x : Source} {n : Nat} (hn : 0 < n) (h : n ≤ (remaining x).length) :
    (remaining { x with pos := x.pos + n }).length < (remaining x).length := by
  rw [remaining_advance, List.length_drop]
  omega

/-- E.BIT, D.CONT and D.RUN consume an item, and E.END and D.END deliver (R62, R63, R69 to R71). -/
theorem OperationOf.ended_or_advanced {s t : State} (h : OperationOf s t) : RunEnded t ∨ RunAdvanced s t := by
  cases h with
  | eBit b rest hrun hp hst hr =>
    have hlen := remaining_advance_length_lt (x := s.encSrc) Nat.one_pos (by simp [hr])
    rw [eBitEffect_eq]
    split <;> exact .inr (.of_enc hrun hrun hp rfl rfl rfl hlen)
  | eEnd hrun hp hst hr =>
    rw [eEndEffect_eq]
    exact .inl ⟨by simp [State.isActive, hrun], by simp [observe, hrun, snkClose_delivered]⟩
  | dCont hrun hp hst hl hc | dRun hrun hp hst hl hc =>
    exact .inr (.of_dec hrun hrun hp rfl rfl rfl (remaining_advance_length_lt (x := s.decSrc) (by decide) hl))
  | dEnd hrun hp hst hr hc =>
    rw [dEndEffect_eq]
    exact .inl ⟨by simp [State.isActive, hrun], by simp [observe, hrun, snkClose_delivered]⟩

/-- A fault is observed (R80, R89). -/
theorem FaultOf.ended {s t : State} (h : FaultOf s t) : RunEnded t := by
  cases h with
  | exhausted hrun | short hrun =>
    exact ⟨by simp [State.isActive, raiseFault, hrun], by simp [observe, raiseFault, hrun]⟩

theorem faultOf_of_raise {s : State} {cause : Cause} {pos : Nat} (h : select s = .raise cause pos) :
    FaultOf s (raiseFault cause pos s) := by
  obtain ⟨hrun, hp, hst, rfl, ⟨hr, hc, rfl⟩ | ⟨hr, hl, rfl⟩⟩ := select_raise_cases h
  · exact .exhausted hrun hp hst hr hc
  · exact .short hrun hp hst hr hl

/-! ### Undisturbed steps -/

/-- An ACTIVE block with nothing scheduled holds, or its step is progress (R86, R89). -/
theorem step_of_active {s : State} (hsch : s.schedule = []) (ha : s.isActive = true) :
    select s = .hold ∨ ∃ t, step s = .next t ∧ (RunEnded t ∨ RunAdvanced s t) := by
  cases hsel : select s with
  | run i u => exact .inr ⟨_, step_of_run hsch hsel, (operationOf_of_run hsel).ended_or_advanced⟩
  | raise cause pos => exact .inr ⟨_, step_of_raise hsch hsel, .inl (faultOf_of_raise hsel).ended⟩
  | hold => exact .inl rfl
  | ended why => exact absurd hsel (select_ne_ended ha why)

/-- A step of an ACTIVE block that changes nothing is a hold. -/
theorem select_hold_of_step_self {s : State} (hsch : s.schedule = []) (ha : s.isActive = true) (h : step s = .next s) :
    select s = .hold := by
  obtain hhold | ⟨t, ht, hprogress⟩ := step_of_active hsch ha
  · exact hhold
  · obtain rfl : s = t := Host.Outcome.next.inj (h.symm.trans ht)
    obtain ⟨hended, -⟩ | ⟨-, -, -, -, hlen⟩ := hprogress
    · exact absurd (ha.symm.trans hended) (by decide)
    · exact absurd hlen (lt_irrefl _)

/-- A block whose source answers and whose sink accepts does not hold (R86). -/
theorem select_ne_hold_of_ready {s : State} (hst : s.src.stalled = false) (hsnk : s.snk.stalled = false) :
    select s ≠ .hold := by
  cases hrun : s.running with
  | enc =>
    rw [State.src_enc hrun] at hst
    rw [State.snk_enc hrun] at hsnk
    simp [select_hold_enc hrun, hst, hsnk]
  | dec =>
    rw [State.src_dec hrun] at hst
    rw [State.snk_dec hrun] at hsnk
    simp [select_hold_dec hrun, hst, hsnk]

/-- From an undisturbed ACTIVE block the end is at most one step for each bit left and one more away. -/
theorem undisturbed_run_ends {s : State} (h : Undisturbed s) (ha : s.isActive = true) :
    ∃ n t, n ≤ (remaining s.src).length + 1 ∧ runSteps n s = .next t ∧ RunEnded t := by
  induction hlen : (remaining s.src).length using Nat.strong_induction_on generalizing s with
  | h len ih =>
    obtain ⟨hsch, hst, hsnk⟩ := h
    obtain hhold | ⟨u, hstep, hended | ⟨hau, hschu, hstu, hsnku, hlenu⟩⟩ := step_of_active hsch ha
    · exact absurd hhold (select_ne_hold_of_ready hst hsnk)
    · exact ⟨1, u, Nat.succ_le_succ (Nat.zero_le _), runSteps_succ_of_next hstep, hended⟩
    · obtain ⟨n, t, hn, hrun, hended⟩ :=
        ih _ (hlen ▸ hlenu) ⟨hschu.trans hsch, hstu.trans hst, hsnku.trans hsnk⟩ hau rfl
      exact ⟨n + 1, t, by omega, (runSteps_succ_of_next hstep).trans hrun, hended⟩

/-- Settles O49: an undisturbed step is progress (`step_of_active`), and the bits left bound how often it can be. -/
theorem undisturbedRunEndsInTime : Obligations.UndisturbedRunEndsInTime := by
  unfold Obligations.UndisturbedRunEndsInTime
  intro s h ha
  obtain ⟨n, t, hn, hrun, hinactive, hobserve⟩ := undisturbed_run_ends h ha
  exact ⟨n, t, remaining_length s.src ▸ hn, hrun, hinactive, hobserve⟩

end Sys2Proof.Machine
end

section
/-! SUPPORT. What the host's turns do one by one (R86, R87, R90, R91, R96, R99), and raising a fault and its end by a reset (R80,
R84). -/

namespace Sys2Proof.Machine

open Sys2Proof.Safety

/-! ### Pipeline and discard -/

theorem hostTurn_pipeline_of_none {s : State} (h : s.encSnk.delivered = none) :
    hostTurn .pipeline s = .refused .outputNotDelivered := by
  simp [hostTurn, h]

theorem hostTurn_pipeline_of_delivered {s : State} {bytes : List Byte} (h : s.encSnk.delivered = some bytes) :
    hostTurn .pipeline s = tryLaunch .dec (unpackBytes s.bitOrder bytes) s := by
  simp [hostTurn, h]

theorem hostTurn_discardSink_of_fault {s : State} (h : s.dec.phase = .fault) :
    hostTurn .discardSink s = .next (s.setDecSnk (discarded s.decSnk)) :=
  if_pos h

theorem hostTurn_discardSink_of_not_fault {s : State} (h : s.dec.phase ≠ .fault) :
    hostTurn .discardSink s = .refused .hostBreach :=
  if_neg h

/-- A run is under way when the running block is ACTIVE and has consumed input (R96; log 12). -/
theorem midRun_iff (s : State) : s.midRun = true ↔ s.isActive = true ∧ 0 < s.src.pos := by
  simp [State.midRun]

theorem tryLaunch_of_midRun {s : State} (h : s.midRun = true) (blk : Block) (input : List Bit) :
    tryLaunch blk input s = .refused .resetDuringRun :=
  if_pos h

theorem tryLaunch_of_not_midRun {s : State} (h : ¬ s.midRun = true) (blk : Block) (input : List Bit) :
    tryLaunch blk input s = .next (launch blk input s) :=
  if_neg h

/-- Settles O32: the pipeline is a launch of DEC on what ENC delivered, refused like any launch during a run. -/
theorem pipelineNeedsDeliveredOutput : Obligations.PipelineNeedsDeliveredOutput := by
  unfold Obligations.PipelineNeedsDeliveredOutput
  intro s hn
  rw [step_of_host hn]
  refine ⟨fun hd => hostTurn_pipeline_of_none (s := popTurn s) hd, fun bytes hd => ?_⟩
  rw [hostTurn_pipeline_of_delivered (s := popTurn s) hd]
  split
  · rename_i hmid
    exact tryLaunch_of_midRun ((midRun_iff (popTurn s)).2 hmid) ..
  · rename_i hmid
    exact tryLaunch_of_not_midRun (mt (midRun_iff (popTurn s)).1 hmid) ..

/-- Settles O53: the discard replaces DEC's sink alone, which the observation of a fault does not read. -/
theorem discardedSinkLeavesTheFault : Obligations.DiscardedSinkLeavesTheFault := by
  unfold Obligations.DiscardedSinkLeavesTheFault
  intro s hn
  rw [step_of_host hn]
  refine ⟨fun hf => ?_, fun hf => hostTurn_discardSink_of_not_fault (s := popTurn s) hf⟩
  refine ⟨_, hostTurn_discardSink_of_fault (s := popTurn s) hf, rfl, rfl, rfl, rfl, rfl, fun hrun => ?_⟩
  simp [observe, hrun, hf]

/-! ### Delays and answers -/

/-- The acceptance lets an end of an ACTIVE block's source that waits for it take effect (R87; log 7). -/
theorem acceptSink_of_ending {s : State} (ha : s.isActive = true) (he : s.src.ending = true) :
    acceptSink s = (s.setSnk { s.snk with stalled := false }).setSrc (endOfSource s.src) := by
  simp [acceptSink, ha, he]

theorem acceptSink_of_not_ending {s : State} (h : s.isActive = false ∨ s.src.ending = false) :
    acceptSink s = s.setSnk { s.snk with stalled := false } := by
  obtain h | h := h <;> simp [acceptSink, h]

/-- Settles O30: each move by its definition; the acceptance with and without an end that waits for it. -/
theorem hostDelaysChangeOnlyReadiness : Obligations.HostDelaysChangeOnlyReadiness := by
  unfold Obligations.HostDelaysChangeOnlyReadiness
  intro s
  refine ⟨fun hn => step_of_host hn, fun hn => step_of_host hn, fun hn => step_of_host hn, fun hn hnot => ?_,
    fun hn ha he => ?_⟩ <;> rw [step_of_host hn]
  · exact congrArg Host.Outcome.next (acceptSink_of_not_ending (s := popTurn s) hnot)
  · exact congrArg Host.Outcome.next (acceptSink_of_ending (s := popTurn s) ha he)

/-! ### Raising a fault, and its end -/

/-- Settles O26: a raised fault is written to DEC's phase, cause and position alone, by the definition of `raiseFault`. -/
theorem raiseFaultWritesOnlyTheFault : Obligations.RaiseFaultWritesOnlyTheFault := by
  unfold Obligations.RaiseFaultWritesOnlyTheFault
  intro s cause p
  rfl

/-- A faulted DEC does not run: an operation that completes is ENC's, and leaves DEC's registers (R62, R63, R84). -/
theorem OperationOf.dec_eq_of_fault {s t : State} (h : OperationOf s t) (hf : s.dec.phase = .fault) : t.dec = s.dec := by
  cases h with
  | eBit b =>
    rw [eBitEffect_eq]
    split <;> rfl
  | eEnd => rw [eEndEffect_eq]
  | dCont _ hp | dRun _ hp | dEnd _ hp => exact absurd (hp.symm.trans hf) (by decide)

/-- A faulted DEC raises no further fault (R84). -/
theorem FaultOf.phase_ne_fault {s t : State} (h : FaultOf s t) : s.dec.phase ≠ .fault := by
  obtain ⟨⟨⟨-, hp, -⟩, -⟩, -⟩ := h.records
  simp [hp]

/-- What the host does leaves DEC's registers, unless it launches DEC (R91, R94). -/
theorem HostChange.dec_eq_or_launch {s t : State} (h : HostChange s t) :
    t.dec = s.dec ∨ ∃ input, t = Machine.launch .dec input s := by
  obtain ⟨x, k, -, -, rfl⟩ | ⟨-, rfl⟩ | ⟨blk, input, rfl⟩ := hostChange_cases h
  · exact .inl (by simp)
  · exact .inl rfl
  · cases blk with
    | enc => exact .inl rfl
    | dec => exact .inr ⟨input, rfl⟩

/-- Settles O29: a block's turn leaves a faulted DEC, and of the host's turns only a launch of DEC does not. -/
theorem faultIsStickyUntilReset : Obligations.FaultIsStickyUntilReset := by
  unfold Obligations.FaultIsStickyUntilReset
  intro s t hf h
  obtain ⟨-, hop | hfault | rfl⟩ | ⟨m, -, -, hhost⟩ := step_next h
  · exact .inl (hop.dec_eq_of_fault hf)
  · exact absurd hf hfault.phase_ne_fault
  · exact .inl rfl
  · exact hhost.dec_eq_or_launch

end Sys2Proof.Machine
end

section
/-! SUPPORT. The schedule says who moves and nothing else (log 5): any turn goes the same way whatever is scheduled after it. -/

namespace Sys2Proof.Machine

open Sys2Proof.Safety

/-! ### The block's turn -/

/-- No selection depends on the schedule (R53). -/
theorem select_setSchedule (s : State) (l : List Turn) :
    select (s.setSchedule l) = (select s).mapState fun u => u.setSchedule l := by
  have hgate (i : Instr) (u : State) : gate i (u.setSchedule l) = (gate i u).mapState fun u => u.setSchedule l := by
    refine gate_mapState (f := fun u => u.setSchedule l) rfl ?_
    cases i <;> rfl
  cases hrun : s.running with
  | enc =>
    have hrun' : (s.setSchedule l).running = .enc := hrun
    cases hp : s.enc.phase with
    | done => rw [select_of_encDone hrun hp, select_of_encDone hrun' hp]; rfl
    | active =>
      cases hst : s.encSrc.stalled with
      | true => rw [(select_hold_enc hrun).2 ⟨hp, .inl hst⟩, (select_hold_enc hrun').2 ⟨hp, .inl hst⟩]; rfl
      | false =>
        cases hr : remaining s.encSrc with
        | nil => rw [select_encEnd hrun hp hst hr, select_encEnd hrun' hp hst hr, hgate]
        | cons b rest =>
          rw [select_bit hrun hp hst hr, select_bit hrun' hp hst hr]
          exact hgate _ (afterBit s)
  | dec =>
    have hrun' : (s.setSchedule l).running = .dec := hrun
    cases hp : s.dec.phase with
    | done => rw [select_of_decDone hrun hp, select_of_decDone hrun' hp]; rfl
    | fault => rw [select_of_decFault hrun hp, select_of_decFault hrun' hp]; rfl
    | active =>
      cases hst : s.decSrc.stalled with
      | true => rw [(select_hold_dec hrun).2 ⟨hp, .inl hst⟩, (select_hold_dec hrun').2 ⟨hp, .inl hst⟩]; rfl
      | false =>
        by_cases hr : remaining s.decSrc = []
        · cases hc : s.dec.chain with
          | true => rw [select_exhausted hrun hp hst hr hc, select_exhausted hrun' hp hst hr hc]; rfl
          | false => rw [select_decEnd hrun hp hst hr hc, select_decEnd hrun' hp hst hr hc, hgate]
        · by_cases hl : (remaining s.decSrc).length < 8
          · rw [select_short hrun hp hst hr hl, select_short hrun' hp hst hr hl]; rfl
          · have hl' : 8 ≤ (remaining s.decSrc).length := Nat.le_of_not_lt hl
            rw [select_record hrun hp hst hl', select_record hrun' hp hst hl']
            exact hgate _ (afterRecord s)

/-- No effect uses or changes the schedule. -/
theorem effectOf_setSchedule (i : Instr) (s : State) (l : List Turn) :
    effectOf i (s.setSchedule l) = (effectOf i s).setSchedule l := by
  cases i with
  | eBit b =>
    cases hm : mustEmit b s.enc <;> simp [effectOf, eBitEffect_eq, hm] <;> rfl
  | eEnd =>
    simp only [effectOf, eEndEffect_eq]
    rfl
  | dCont | dRun | dEnd => rfl

theorem blockTurn_setSchedule {s t : State} (h : blockTurn s = .next t) (l : List Turn) :
    blockTurn (s.setSchedule l) = .next (t.setSchedule l) :=
  blockTurn_commutes (f := fun u => u.setSchedule l) (select_setSchedule s l) (fun i u _ => effectOf_setSchedule i u l)
    (fun _ _ _ => rfl) h

/-! ### The host's turn -/

@[simp] theorem State.setSchedule_src (s : State) (l : List Turn) : (s.setSchedule l).src = s.src := rfl
@[simp] theorem State.setSchedule_snk (s : State) (l : List Turn) : (s.setSchedule l).snk = s.snk := rfl
@[simp] theorem State.setSchedule_isActive (s : State) (l : List Turn) : (s.setSchedule l).isActive = s.isActive := rfl

@[simp] theorem State.setSchedule_setSrc (s : State) (l : List Turn) (x : Source) :
    (s.setSchedule l).setSrc x = (s.setSrc x).setSchedule l := by
  cases h : s.running <;> simp [State.setSrc, h] <;> rfl

@[simp] theorem State.setSchedule_setSnk (s : State) (l : List Turn) (k : Sink) :
    (s.setSchedule l).setSnk k = (s.setSnk k).setSchedule l := by
  cases h : s.running <;> simp [State.setSnk, h] <;> rfl

theorem waitsForSink_setSchedule (s : State) (l : List Turn) : waitsForSink (s.setSchedule l) = waitsForSink s := by
  rw [Bool.eq_iff_iff, waitsForSink_iff, waitsForSink_iff, State.setSchedule_src, State.setSchedule_setSrc, select_setSchedule]
  cases select (s.setSrc { s.src with stalled := false }) <;> simp [Selection.mapState]

theorem endSource_setSchedule (s : State) (l : List Turn) : endSource (s.setSchedule l) = (endSource s).setSchedule l := by
  unfold endSource
  rw [waitsForSink_setSchedule, State.setSchedule_isActive, State.setSchedule_src, State.setSchedule_setSrc,
    State.setSchedule_setSrc]
  split
  · split <;> rfl
  · rfl

theorem acceptSink_setSchedule (s : State) (l : List Turn) : acceptSink (s.setSchedule l) = (acceptSink s).setSchedule l := by
  unfold acceptSink
  simp only [State.setSchedule_src, State.setSchedule_snk, State.setSchedule_isActive, State.setSchedule_setSnk,
    State.setSchedule_setSrc]
  split <;> rfl

theorem tryLaunch_setSchedule {blk : Block} {input : List Bit} {s t : State} (h : tryLaunch blk input s = .next t)
    (l : List Turn) : tryLaunch blk input (s.setSchedule l) = .next (t.setSchedule l) := by
  obtain ⟨hm, rfl⟩ := tryLaunch_next h
  have hm' : (s.setSchedule l).midRun = false := hm
  rw [tryLaunch, hm']
  cases blk <;> rfl

theorem hostTurn_setSchedule {m : HostMove} {s t : State} (h : hostTurn m s = .next t) (l : List Turn) :
    hostTurn m (s.setSchedule l) = .next (t.setSchedule l) := by
  cases m with
  | stallSource | answerSource | stallSink => cases h; simp [hostTurn]
  | acceptSink => cases h; exact congrArg _ (acceptSink_setSchedule s l)
  | endSource => cases h; exact congrArg _ (endSource_setSchedule s l)
  | launch block input =>
    cases block with
    | none => cases h
    | some blk => exact tryLaunch_setSchedule h l
  | pipeline =>
    cases hd : s.encSnk.delivered with
    | none => rw [hostTurn_pipeline_of_none hd] at h; cases h
    | some bytes =>
      rw [hostTurn_pipeline_of_delivered hd] at h
      rw [hostTurn_pipeline_of_delivered (s := s.setSchedule l) hd]
      exact tryLaunch_setSchedule h l
  | discardSink =>
    by_cases hf : s.dec.phase = .fault
    · rw [hostTurn_discardSink_of_fault hf] at h
      cases h
      exact hostTurn_discardSink_of_fault (s := s.setSchedule l) hf
    · rw [hostTurn_discardSink_of_not_fault hf] at h
      cases h
  | changeInput | writeSink | closeSink | failSink => cases h

/-! ### Scheduled turns -/

/-- The turn of one of those who can move. -/
def takeTurn : Turn → State → Result
  | .block => blockTurn
  | .host m => hostTurn m

/-- The first scheduled turn is taken as if nothing else were scheduled. -/
theorem step_scheduled {turn : Turn} {s t : State} (h : takeTurn turn s = .next t) (l : List Turn) :
    step (s.setSchedule (turn :: l)) = .next (t.setSchedule l) := by
  cases turn with
  | block => exact blockTurn_setSchedule h l
  | host m => exact hostTurn_setSchedule h l

theorem State.setSchedule_of_empty {s : State} (h : s.schedule = []) : s.setSchedule [] = s := by
  rw [← h]
  rfl

/-- The last scheduled turn. -/
theorem step_scheduled_last {turn : Turn} {s t : State} (h : takeTurn turn s = .next t) (ht : t.schedule = []) :
    step (s.setSchedule [turn]) = .next t := by
  rw [step_scheduled h, State.setSchedule_of_empty ht]

/-- The last two scheduled turns. -/
theorem runSteps_scheduled_last_two {first second : Turn} {s u t : State} (hfirst : takeTurn first s = .next u)
    (hsecond : takeTurn second u = .next t) (ht : t.schedule = []) : runSteps 2 (s.setSchedule [first, second]) = .next t := by
  rw [runSteps_succ_of_next (step_scheduled hfirst [second]), runSteps_one, step_scheduled_last hsecond ht]

end Sys2Proof.Machine
end

section
/-! SUPPORT. Holds and the liberties of the host: no liberty lets a waiting block move (R86, R91), and an end of the source out of band
is seen once source and sink are ready (R87). -/

namespace Sys2Proof.Machine

open Sys2Proof.Safety

/-! ### Ready streams -/

/-- An answer of a source that answers changes nothing. -/
theorem State.setSrc_of_answering {s : State} (h : s.src.stalled = false) : s.setSrc { s.src with stalled := false } = s := by
  rw [← h]
  exact s.setSrc_self

/-- An acceptance of a sink that accepts changes nothing. -/
theorem State.setSnk_of_accepting {s : State} (h : s.snk.stalled = false) : s.setSnk { s.snk with stalled := false } = s := by
  rw [← h]
  exact s.setSnk_self

/-- A block whose source answers waits for its sink exactly if it holds (R86). -/
theorem waitsForSink_iff_hold {s : State} (h : s.src.stalled = false) : waitsForSink s = true ↔ select s = .hold := by
  rw [waitsForSink_iff, State.setSrc_of_answering h]

/-! ### A hold stays one -/

/-- A block that holds still holds when its sink cannot accept. -/
theorem select_hold_stallSink {s : State} (h : select s = .hold) :
    select (s.setSnk { s.snk with stalled := true }) = .hold := by
  cases hrun : s.running with
  | enc =>
    obtain ⟨hp, hwait⟩ := (select_hold_enc hrun).1 h
    rw [State.setSnk_enc hrun]
    exact (select_hold_enc (by exact hrun)).2 ⟨hp, hwait.imp_right fun hsnk => ⟨rfl, hsnk.2⟩⟩
  | dec =>
    obtain ⟨hp, hwait⟩ := (select_hold_dec hrun).1 h
    rw [State.setSnk_dec hrun]
    exact (select_hold_dec (by exact hrun)).2 ⟨hp, hwait.imp_right fun hsnk => ⟨rfl, hsnk.2⟩⟩

/-- A block that waits for its sink does not see an end of its source (R91; log 7). -/
theorem endSource_of_waiting {s : State} (ha : s.isActive = true) (hst : s.src.stalled = false) (h : select s = .hold) :
    endSource s = s.setSrc { s.src with ending := true } := by
  simp [endSource, ha, (waitsForSink_iff_hold hst).2 h]

/-- Ending the source writes the source alone. -/
theorem endSource_eq (s : State) : endSource s = s.setSrc (endSource s).src := by
  obtain ⟨-, -, he⟩ | ⟨-, -, he⟩ | ⟨-, he⟩ := endSource_cases s <;> rw [he] <;> simp

@[simp] theorem endSource_isActive (s : State) : (endSource s).isActive = s.isActive := by
  rw [endSource_eq, State.setSrc_isActive]
@[simp] theorem endSource_running (s : State) : (endSource s).running = s.running := by
  rw [endSource_eq, State.setSrc_running]
@[simp] theorem endSource_dec (s : State) : (endSource s).dec = s.dec := by
  rw [endSource_eq, State.setSrc_dec_regs]
@[simp] theorem endSource_schedule (s : State) : (endSource s).schedule = s.schedule := by
  rw [endSource_eq, State.setSrc_schedule]
@[simp] theorem endSource_snk (s : State) : (endSource s).snk = s.snk := by
  rw [endSource_eq, State.setSrc_snk]

/-- Ending the source does not make it answer. -/
@[simp] theorem endSource_src_stalled (s : State) : (endSource s).src.stalled = s.src.stalled := by
  obtain ⟨-, -, he⟩ | ⟨-, -, he⟩ | ⟨-, he⟩ := endSource_cases s <;> rw [he] <;> simp

/-- A block that holds still holds after its source is ended: it waits for its source, which still cannot answer, or for its sink, and
then the end waits too (R91; log 7). -/
theorem select_hold_endSource {s : State} (ha : s.isActive = true) (h : select s = .hold) :
    select (endSource s) = .hold := by
  cases hst : s.src.stalled with
  | true => exact select_of_stalledSource (by simpa using ha) (by simpa using hst)
  | false =>
    rw [endSource_of_waiting ha hst h]
    exact (select_hold_ending s true).2 h

theorem step_of_hold {s : State} (hsch : s.schedule = []) (h : select s = .hold) : step s = .next s := by
  rw [step_of_empty hsch, blockTurn_of_hold h]

/-- Settles O54: the block holds, and each liberty leaves it holding. -/
theorem libertiesNeverMoveAWaitingBlock : Obligations.LibertiesNeverMoveAWaitingBlock := by
  unfold Obligations.LibertiesNeverMoveAWaitingBlock
  intro s hsch ha hself
  have hhold := select_hold_of_step_self hsch ha hself
  have hended : (endSource s).schedule = [] := by rw [endSource_schedule, hsch]
  refine ⟨?_, fun hst => ?_⟩
  · rintro m (rfl | rfl | rfl)
    case inl =>
      have hsource : (s.setSrc { s.src with stalled := true }).schedule = [] := by rw [State.setSrc_schedule, hsch]
      exact ⟨_, step_scheduled_last (turn := .host .stallSource) rfl hsource,
        step_of_hold hsource (select_of_stalledSource (by simpa using ha) (by simp))⟩
    case inr.inl =>
      have hsink : (s.setSnk { s.snk with stalled := true }).schedule = [] := by rw [State.setSnk_schedule, hsch]
      exact ⟨_, step_scheduled_last (turn := .host .stallSink) rfl hsink, step_of_hold hsink (select_hold_stallSink hhold)⟩
    case inr.inr =>
      exact ⟨_, step_scheduled_last (turn := .host .endSource) rfl hended,
        step_of_hold hended (select_hold_endSource ha hhold)⟩
  · have hanswer : hostTurn .answerSource (endSource s) = .next (endSource s) :=
      congrArg _ (State.setSrc_of_answering (by simpa using hst))
    exact ⟨_, runSteps_scheduled_last_two (first := .host .endSource) (second := .host .answerSource) rfl hanswer hended,
      step_of_hold hended (select_hold_endSource ha hhold)⟩

/-! ### The acceptance -/

/-- The acceptance makes the sink accept, and beyond it writes the source alone. -/
theorem acceptSink_eq (s : State) :
    acceptSink s = (s.setSnk { s.snk with stalled := false }).setSrc (acceptSink s).src := by
  obtain ⟨-, -, he⟩ | ⟨-, he⟩ := acceptSink_cases s
  · simp [he]
  · simpa [he] using (State.setSrc_self (s.setSnk { s.snk with stalled := false })).symm

@[simp] theorem acceptSink_isActive (s : State) : (acceptSink s).isActive = s.isActive := by
  rw [acceptSink_eq, State.setSrc_isActive, State.setSnk_isActive]
@[simp] theorem acceptSink_running (s : State) : (acceptSink s).running = s.running := by
  rw [acceptSink_eq, State.setSrc_running, State.setSnk_running]
@[simp] theorem acceptSink_dec (s : State) : (acceptSink s).dec = s.dec := by
  rw [acceptSink_eq, State.setSrc_dec_regs, State.setSnk_dec_regs]
@[simp] theorem acceptSink_schedule (s : State) : (acceptSink s).schedule = s.schedule := by
  rw [acceptSink_eq, State.setSrc_schedule, State.setSnk_schedule]
@[simp] theorem acceptSink_snk (s : State) : (acceptSink s).snk = { s.snk with stalled := false } := by
  rw [acceptSink_eq, State.setSrc_snk, State.setSnk_snk]

/-- The acceptance does not make the source answer. -/
@[simp] theorem acceptSink_src_stalled (s : State) : (acceptSink s).src.stalled = s.src.stalled := by
  obtain ⟨-, -, he⟩ | ⟨-, he⟩ := acceptSink_cases s <;> simp [he]

/-! ### An end of the source out of band -/

/-- The source has been ended: the end has taken effect, or does so when the sink accepts (R87; log 7). -/
def SourceEnded (x : Source) : Prop := x.ending = true ∨ remaining x = []

theorem endSource_sourceEnded {s : State} (ha : s.isActive = true) : SourceEnded (endSource s).src := by
  obtain ⟨-, -, he⟩ | ⟨-, -, he⟩ | ⟨hinactive, -⟩ := endSource_cases s
  · exact .inl (by rw [he, State.setSrc_src])
  · exact .inr (by rw [he, State.setSrc_src, remaining_endOfSource])
  · exact absurd (ha.symm.trans hinactive) (by decide)

/-- After the acceptance an ended source is empty. -/
theorem remaining_acceptSink {s : State} (ha : s.isActive = true) (h : SourceEnded s.src) :
    remaining (acceptSink s).src = [] := by
  cases he : s.src.ending with
  | true => rw [acceptSink_of_ending ha he, State.setSrc_src, remaining_endOfSource]
  | false =>
    rw [acceptSink_of_not_ending (.inr he), State.setSnk_src]
    exact h.resolve_left (by simp [he])

/-- The state after the host has done its duty, to answer and to accept (R91). -/
def afterDuty (s : State) : State := acceptSink (s.setSrc { s.src with stalled := false })

theorem runSteps_duty {s : State} (hsch : s.schedule = []) :
    runSteps 2 (s.setSchedule [.host .answerSource, .host .acceptSink]) = .next (afterDuty s) :=
  runSteps_scheduled_last_two rfl rfl (by simpa [afterDuty] using hsch)

/-- Where source and sink are ready and no end waits, there is nothing to do. -/
theorem afterDuty_of_ready {s : State} (hst : s.src.stalled = false) (hsnk : s.snk.stalled = false)
    (hend : s.src.ending = false) : afterDuty s = s := by
  rw [afterDuty, State.setSrc_of_answering hst, acceptSink_of_not_ending (.inr hend), State.setSnk_of_accepting hsnk]

/-- Where source and sink are ready, an end takes effect at once. -/
theorem endSource_of_ready {s : State} (ha : s.isActive = true) (hst : s.src.stalled = false) (hsnk : s.snk.stalled = false) :
    endSource s = s.setSrc (endOfSource s.src) := by
  have hwaits : ¬ waitsForSink s = true := mt (waitsForSink_iff_hold hst).1 (select_ne_hold_of_ready hst hsnk)
  simp [endSource, ha, hwaits]

/-- The running block is ACTIVE, undisturbed, and has nothing left to read. -/
def AtEmptySource (s : State) : Prop := Undisturbed s ∧ s.isActive = true ∧ remaining s.src = []

theorem afterDuty_atEmptySource {s : State} (hsch : s.schedule = []) (ha : s.isActive = true) (h : SourceEnded s.src) :
    AtEmptySource (afterDuty s) := by
  refine ⟨⟨by simpa [afterDuty] using hsch, by simp [afterDuty], by simp [afterDuty]⟩, by simpa [afterDuty] using ha, ?_⟩
  refine remaining_acceptSink (by simpa using ha) ?_
  rw [State.setSrc_src]
  exact h

/-- ENC at an empty source runs E.END to DONE (R60, R63). -/
theorem AtEmptySource.step_enc {s : State} (h : AtEmptySource s) (hrun : s.running = .enc) :
    step s = exec .eEnd s ∧ ∃ u, step s = .next u ∧ u.enc.phase = .done := by
  obtain ⟨⟨hsch, hst, hsnk⟩, ha, hr⟩ := h
  rw [State.src_enc hrun] at hst hr
  rw [State.snk_enc hrun] at hsnk
  have hsel := select_eEnd_of_ready ⟨hrun, by simpa [State.isActive, hrun] using ha, hst⟩ hr hsnk
  exact ⟨by rw [step_of_empty hsch, blockTurn_of_run hsel], _, step_of_run hsch hsel, eEndEffect_phase s⟩

/-- DEC at an empty source outside a chain runs D.END to DONE (R68, R71). -/
theorem AtEmptySource.step_dec {s : State} (h : AtEmptySource s) (hrun : s.running = .dec) (hc : s.dec.chain = false) :
    step s = exec .dEnd s ∧ ∃ u, step s = .next u ∧ u.dec.phase = .done := by
  obtain ⟨⟨hsch, hst, hsnk⟩, ha, hr⟩ := h
  rw [State.src_dec hrun] at hst hr
  have hsel := select_decEnd hrun (by simpa [State.isActive, hrun] using ha) hst hr hc
  rw [gate_of_accepting hsnk] at hsel
  exact ⟨by rw [step_of_empty hsch, blockTurn_of_run hsel], _, step_of_run hsch hsel, rfl⟩

/-- DEC at an empty source in a chain faults with SRC_EXHAUSTED (R81). -/
theorem AtEmptySource.step_dec_chain {s : State} (h : AtEmptySource s) (hrun : s.running = .dec) (hc : s.dec.chain = true) :
    ∃ u, step s = .next u ∧ u.dec.phase = .fault ∧ u.dec.cause = .srcExhausted := by
  obtain ⟨⟨hsch, hst, -⟩, ha, hr⟩ := h
  rw [State.src_dec hrun] at hst hr
  have hsel := select_exhausted hrun (by simpa [State.isActive, hrun] using ha) hst hr hc
  exact ⟨_, step_of_raise hsch hsel, rfl, rfl⟩

/-- Settles O31: `t` is the state after the end of the source, and `v` the one after the host's duty, in which the source is empty. -/
theorem outOfBandEndIsSeenAtTheNextStep : Obligations.OutOfBandEndIsSeenAtTheNextStep := by
  unfold Obligations.OutOfBandEndIsSeenAtTheNextStep
  intro s hs ha
  have hn : nextTurn s = .host .endSource := by simp [nextTurn, hs]
  have hstep : step s = .next (endSource (popTurn s)) := step_of_host hn
  have hsch : (popTurn s).schedule = [] := by simp [hs]
  have hsch' : (endSource (popTurn s)).schedule = [] := by rw [endSource_schedule, hsch]
  have hempty := afterDuty_atEmptySource hsch' ((endSource_isActive _).trans ha) (endSource_sourceEnded ha)
  have hrun : (afterDuty (endSource (popTurn s))).running = s.running := by simp [afterDuty]
  have hdec : (afterDuty (endSource (popTurn s))).dec = s.dec := by simp [afterDuty]
  refine ⟨_, afterDuty (endSource (popTurn s)), hstep, runSteps_duty hsch', ?_, fun hst hsnk => ?_, fun hself => ?_,
    fun henc => hempty.step_enc (hrun.trans henc), fun hd hc => hempty.step_dec (hrun.trans hd) (hdec ▸ hc),
    fun hd hc => hempty.step_dec_chain (hrun.trans hd) (hdec ▸ hc)⟩
  · obtain ⟨-, -, hr⟩ := hempty
    exact (srcIsEmpty_iff _).2 hr
  · refine afterDuty_of_ready ((endSource_src_stalled _).trans hst) (by rw [endSource_snk]; exact hsnk) ?_
    rw [endSource_of_ready (s := popTurn s) ha hst hsnk, State.setSrc_src, endOfSource_ending]
  · exact step_of_hold hsch' (select_hold_endSource ha (select_hold_of_step_self hsch ha hself))

end Sys2Proof.Machine
end

section
/-! SUPPORT. The pipeline: ENC's run under a schedule, the launch of DEC on what it delivered, and DEC's run, which gives the input back
(R75, R90, R99, R102). -/

namespace Sys2Proof.Safety

open Sys2Proof.Machine

/-! ### The block's turns under a schedule -/

/-- The block's turn leaves the schedule, because it goes the same way under any. -/
theorem blockTurn_schedule {s t : State} (h : blockTurn s = .next t) : t.schedule = s.schedule := by
  have hself : blockTurn s = .next (t.setSchedule s.schedule) := blockTurn_setSchedule h s.schedule
  have ht : t = t.setSchedule s.schedule := Host.Outcome.next.inj (h.symm.trans hself)
  exact (congrArg State.schedule ht).trans rfl

/-- A run with nothing scheduled goes the same way where just its turns are scheduled first. -/
theorem runSteps_scheduled_blocks {k : Nat} {s t : State} (hsch : s.schedule = []) (h : runSteps k s = .next t)
    (l : List Turn) : runSteps k (s.setSchedule (List.replicate k .block ++ l)) = .next (t.setSchedule l) := by
  induction k generalizing s with
  | zero =>
    cases h
    rfl
  | succ k ih =>
    cases hs : step s with
    | next u =>
      rw [runSteps_succ_of_next hs] at h
      rw [step_of_empty hsch] at hs
      rw [List.replicate_succ, List.cons_append, runSteps_succ_of_next (step_scheduled (turn := .block) hs _)]
      exact ih ((blockTurn_schedule hs).trans hsch) h
    | fault r => simp [runSteps, hs] at h
    | refused r => simp [runSteps, hs] at h

theorem runSteps_bitOrder {k : Nat} {s t : State} (h : runSteps k s = .next t) : t.bitOrder = s.bitOrder :=
  runSteps_keeps (P := fun u => u.bitOrder = s.bitOrder) (fun _ _ hu hstep => (step_bitOrder_eq hstep).trans hu) h rfl

/-! ### The two halves of the pipeline -/

/-- After ENC's run, and with a pipeline scheduled next, DEC is launched on ENC's records (R64, R90, R99). -/
theorem runSteps_enc_pipeline (s : State) (input : List Bit) :
    ∃ t, runSteps (input.length + 2)
        ((launch .enc input s).setSchedule (List.replicate (input.length + 1) .block ++ [.host .pipeline])) =
          .next (launch .dec (unpackBytes s.bitOrder (encRecords input)) t) ∧
      t.schedule = [] ∧ t.bitOrder = s.bitOrder := by
  obtain ⟨u, -, ⟨⟨hrun, -, -⟩, -, -⟩, hrunEnd, -, -, hsnk⟩ := encoder_run (s := s.setSchedule []) rfl input
  have ho : (eEndEffect u).bitOrder = s.bitOrder := (runSteps_bitOrder hrunEnd).trans rfl
  have hidle : ¬ (eEndEffect u).midRun = true := by
    rw [eEndEffect_eq]
    simp [State.midRun, State.isActive, hrun]
  have hpipeline : takeTurn (.host .pipeline) (eEndEffect u) =
      .next (launch .dec (unpackBytes s.bitOrder (encRecords input)) (eEndEffect u)) := by
    rw [takeTurn, hostTurn_pipeline_of_delivered (congrArg Sink.delivered hsnk), tryLaunch_of_not_midRun hidle, ho]
  exact ⟨(eEndEffect u).setSchedule [], runSteps_snoc (runSteps_scheduled_blocks rfl hrunEnd [.host .pipeline])
    (step_scheduled (turn := .host .pipeline) hpipeline []), rfl, ho⟩

/-- DEC gives back an input without defective runs from ENC's records of it (R75, 5). -/
theorem decodedBits_encRecords_of_sound {input : List Bit} (h : ∀ r ∈ runsOf input, defective r.2 = false) :
    decodedBits (encRecords input) = input := by
  obtain ⟨hbits, -⟩ := (roundTripBits_eq_and_parity_iff (runsOf_pos input)).2 h
  rw [decodedBits_encRecords, hbits, bitsOfRuns_runsOf]

/-- Settles O52: DEC's run on ENC's records ends in D.END, since the last run is not defective, and gives the input back. -/
theorem pipelineIsLosslessWithoutDefectiveRuns : Obligations.PipelineIsLosslessWithoutDefectiveRuns := by
  unfold Obligations.PipelineIsLosslessWithoutDefectiveRuns
  intro s input hsound hsch
  obtain ⟨t, henc, ht, ho⟩ := runSteps_enc_pipeline s input
  have hstart : (launch .enc input s).setSchedule (List.replicate (input.length + 1) .block ++ [.host .pipeline]) =
      launch .enc input s := by
    rw [← hsch]
    rfl
  have hlast : (encRecords input).getLast? ≠ some 255#8 := by
    obtain ⟨-, hfinal⟩ := (forall_not_defective_iff (runsOf input)).1 hsound
    rw [ne_eq, encRecords_getLast?_eq_cont_iff, hfinal]
    decide
  have hdec := runSteps_records ht (encRecords input) []
  rw [List.append_nil, ho] at hdec
  rw [hstart] at henc
  refine ⟨_, _, (runSteps_add henc).trans (runSteps_snoc hdec (step_recordsDone_end ht hlast)), rfl, ?_⟩
  have hobserve : observe (dEndEffect (recordsDone t (encRecords input) [])) =
      some (.delivered (packBytes t.bitOrder (padded (decodedBits (encRecords input))))) := rfl
  rwa [decodedBits_encRecords_of_sound hsound, ho] at hobserve

end Sys2Proof.Safety
end

section
/-! SUPPORT. Reset and launch (R94 to R97): the values a launch gives its block, the launch as a turn of the host, and the invariants of
both blocks at reset and after a launch. -/

namespace Sys2Proof.Machine

open Sys2Proof.Safety

/-! ### The values after reset -/

/-- Settles O1: `launch_enc` and `launch_dec` give the block its reset registers and streams just attached. -/
theorem resetGivesTheStatedValues : Obligations.ResetGivesTheStatedValues := by
  unfold Obligations.ResetGivesTheStatedValues
  intro s input
  constructor
  · simp [launch_enc]
  · simp [launch_dec]

/-- Settles O2: by the definition of `State.reset`. -/
theorem startStateIsReset : Obligations.StartStateIsReset := by
  unfold Obligations.StartStateIsReset
  exact ⟨rfl, rfl, rfl, rfl, rfl, rfl, rfl, rfl⟩

/-! ### The launch as a turn of the host -/

theorem hostTurn_launch (blk : Block) (input : List Bit) (s : State) :
    hostTurn (.launch (some blk) input) s = tryLaunch blk input s := rfl

/-- Settles O3: the turn is a launch that is tried, and it is refused exactly during a run (`midRun_iff`). -/
theorem launchStartsOrIsRefusedDuringARun : Obligations.LaunchStartsOrIsRefusedDuringARun := by
  unfold Obligations.LaunchStartsOrIsRefusedDuringARun
  intro s blk input hn
  rw [step_of_host hn, hostTurn_launch]
  split_ifs with hmid
  · exact tryLaunch_of_midRun ((midRun_iff (popTurn s)).2 hmid) ..
  · exact tryLaunch_of_not_midRun (mt (midRun_iff (popTurn s)).1 hmid) ..

end Sys2Proof.Machine

namespace Sys2Proof.Safety

open Sys2Proof.Machine

/-! ### The machine's invariant after a launch and at reset -/

theorem encInv_launch (input : List Bit) (s : State) : EncInv (launch .enc input s) :=
  ⟨Nat.zero_le _, .attached _, by simp [EncOk, launch_enc]⟩

theorem decInv_launch (input : List Bit) (s : State) : DecInv (launch .dec input s) :=
  ⟨Nat.zero_le _, .attached _, (decOk_iff_of_active rfl).2 ⟨rfl, rfl, rfl, rfl⟩⟩

/-- Settles O37: at reset each block's side is as a launch on an empty input leaves it. -/
theorem machineInvariantHoldsAtReset : Obligations.MachineInvariantHoldsAtReset := by
  unfold Obligations.MachineInvariantHoldsAtReset
  exact (inv_iff State.reset).2 ⟨encInv_launch [] State.reset, decInv_launch [] State.reset⟩

/-! ### The tracking invariants after a launch and at reset -/

theorem decTracks_launch (input : List Bit) (s : State) : DecTracks (launch .dec input s) :=
  fun _ => ⟨rfl, rfl, rfl, by simp [consumedRecords, launch_dec, packBytes]⟩

/-- The invariant of ENC speaks of nothing that a launch of DEC writes (R4). -/
theorem encTracks_launch_dec_iff (input : List Bit) (s : State) : EncTracks (launch .dec input s) ↔ EncTracks s := Iff.rfl

/-- The invariant of DEC speaks of nothing that a launch of ENC writes (R4). -/
theorem decTracks_launch_enc_iff (input : List Bit) (s : State) : DecTracks (launch .enc input s) ↔ DecTracks s := Iff.rfl

/-- Settles O42: a launch makes its own block's invariant hold and leaves the other's; at reset each block's side is as a launch on an
empty input leaves it. -/
theorem trackingHoldsAtResetAndLaunch : Obligations.TrackingHoldsAtResetAndLaunch := by
  unfold Obligations.TrackingHoldsAtResetAndLaunch
  refine ⟨⟨encTracks_launch [] State.reset, decTracks_launch [] State.reset⟩, fun s input =>
    ⟨encTracks_launch input s, decTracks_launch input s, fun blk henc hdec => ?_⟩⟩
  cases blk with
  | enc => exact ⟨encTracks_launch input s, (decTracks_launch_enc_iff input s).2 hdec⟩
  | dec => exact ⟨(encTracks_launch_dec_iff input s).2 henc, decTracks_launch input s⟩

end Sys2Proof.Safety
end
